-- ==== Sys2Proof/Word.lean ====
section
/-!
DEFINITION. The word types of the block.
A byte is an unsigned integer 0..255 (spec/00_scope.md R5); the host data bus has DATA_BITS = 32 bits (R4).
-/

namespace Sys2Proof

/-- BYTE of R4: 8 bits, unsigned. -/
abbrev Byte := BitVec 8

/-- The host data bus: DATA_BITS of R4. -/
abbrev Word := BitVec 32

/-- A host transaction: the 40-bit word of spec/30_encoding.md R69, W in bit 39, IDX in 38:32, DATA in 31:0. -/
abbrev TxnWord := BitVec 40

/-- A wire frame of the opcode table's format WIRE80, wire position 0 in bits 79:72 (R60, R61). -/
abbrev FrameWord := BitVec 80

end Sys2Proof
end

