-- ==== Sys2Proof/Config.lean ====
section
/-!
DEFINITION. The one parameter the spec leaves open, PAYLOAD_LEN (spec/00_scope.md R4, spec/93_implementation_defined.md U3),
as a configuration argument of the model. The other parameters of R4 are fixed and stand where they are used.
-/

namespace Sys2Proof

/-- What an implementation fixes: P = PAYLOAD_LEN, "a configuration argument with default 9" (R4). -/
structure Config where
  payloadLen : Nat
deriving DecidableEq, Repr

/-- F = FRAME_LEN = P + 1: the payload and one checksum byte (R4). -/
def Config.frameLen (c : Config) : Nat := c.payloadLen + 1

/-- "Constraint on P for every rule of this spec to make sense: 8 <= P <= 15" (R4). -/
abbrev Config.Admissible (c : Config) : Prop := 8 ≤ c.payloadLen ∧ c.payloadLen ≤ 15

/-- The value this hardware takes: P = 9, F = 10 (R4). -/
def Config.hardware : Config := ⟨9⟩

end Sys2Proof
end

