-- ==== Sys2Proof/Machine/Codec.lean ====
section
/-!
DEFINITION. The pure functions of the codec, "the normative core" (spec/92_eei_decisions.md D1): Checksum, Validate, Encode,
Decode and the views. They read no register and write none (spec/00_scope.md R6).
-/

namespace Sys2Proof

/-- The errors of spec/60_exceptions.md R130. -/
inductive ErrorKind where
  /-- Code 1: VIN outside the signed 32-bit range. -/
  | encodeError
  /-- Code 2: the input length is not F. -/
  | frameLengthError
  /-- Code 3: the computed checksum is not the trailing byte. -/
  | checksumError
  /-- Code 4: a CMD code 0x06 .. 0xFF. -/
  | illegalCommand
deriving DecidableEq, Repr

namespace Codec

/-- The reserved bytes of a command frame: RSV_FILL = 0x00 (R4, spec/30_encoding.md R65). -/
def rsvFill : Byte := 0x00

/-- VALUE_MIN = -2^31 (R4). -/
def valueMin : Int := -2147483648

/-- VALUE_MAX = 2^31 - 1 (R4). -/
def valueMax : Int := 2147483647

/-- Byte i of a sequence; every use is below the sequence's length in a well-formed state (zero beyond it). -/
def byteAt (b : List Byte) (i : Nat) : Byte := b.getD i 0

/-- `Checksum(b) = (b[0] + b[1] + ... + b[n-1]) mod 256` (spec/40_checksum.md R80). -/
def checksum (b : List Byte) : Byte := BitVec.ofNat 8 (b.map BitVec.toNat).sum

/-- The four bytes of a 32-bit pattern in wire order, most significant first (spec/30_encoding.md R62, spec/20_memory.md R42). -/
def valueBytes (w : Word) : List Byte :=
  [w.extractLsb' 24 8, w.extractLsb' 16 8, w.extractLsb' 8 8, w.extractLsb' 0 8]

/-- The 32-bit pattern of four bytes in wire order (R63). -/
def wordOf (b0 b1 b2 b3 : Byte) : Word := b0 ++ b1 ++ b2 ++ b3

/-- The payload of a command frame: the five fields in wire order, then P - 8 reserved bytes (R60, R65, R90). -/
def payload (c : Config) (o t m : Byte) (w : Word) (a : Byte) : List Byte :=
  [o, t, m] ++ valueBytes w ++ [a] ++ List.replicate (c.payloadLen - 8) rsvFill

/-- `Encode(o, t, m, v, a)` (spec/41_encode.md R90); the range test is R91. -/
def encode (c : Config) (o t m : Byte) (v : Int) (a : Byte) : Except ErrorKind (List Byte) :=
  if v < valueMin ∨ valueMax < v then
    .error .encodeError
  else
    let p := payload c o t m (BitVec.ofInt 32 v) a
    .ok (p ++ [checksum p])

/-- `Validate(b)`: the length, then the checksum (spec/40_checksum.md R83). -/
def validate (c : Config) (b : List Byte) : Except ErrorKind Byte :=
  if b.length ≠ c.frameLen then
    .error .frameLengthError
  else if checksum (b.take c.payloadLen) ≠ byteAt b c.payloadLen then
    .error .checksumError
  else
    .ok (checksum (b.take c.payloadLen))

/-- `Decode(b)`: the payload of a valid frame (spec/42_decode.md R100). -/
def decode (c : Config) (b : List Byte) : Except ErrorKind (List Byte) :=
  if b.length ≠ c.frameLen then
    .error .frameLengthError
  else if checksum (b.take c.payloadLen) ≠ byteAt b c.payloadLen then
    .error .checksumError
  else
    .ok (b.take c.payloadLen)

/-- The fields of a Frame (R60). -/
structure Frame where
  commandId : Byte
  type : Byte
  motorOrBank : Byte
  value : Int
  address : Byte
deriving DecidableEq, Repr

/-- The fields of a Reply (R61): x holds the unnamed bytes, with no meaning given. -/
structure Reply where
  status : Byte
  address : Byte
  value : Int
  x : List Byte
deriving DecidableEq, Repr

/-- The pattern of the Frame view's value, `p[3]:p[4]:p[5]:p[6]` (R102). -/
def frameValue (p : List Byte) : Word := wordOf (byteAt p 3) (byteAt p 4) (byteAt p 5) (byteAt p 6)

/-- The pattern of the Reply view's value, `p[2]:p[3]:p[4]:p[5]` (R103). -/
def replyValue (p : List Byte) : Word := wordOf (byteAt p 2) (byteAt p 3) (byteAt p 4) (byteAt p 5)

/-- `FrameView(p)` (R102). -/
def frameView (p : List Byte) : Frame where
  commandId := byteAt p 0
  type := byteAt p 1
  motorOrBank := byteAt p 2
  value := (frameValue p).toInt
  address := byteAt p 7

/-- `ReplyView(p)` (R103). -/
def replyView (p : List Byte) : Reply where
  status := byteAt p 0
  address := byteAt p 1
  value := (replyValue p).toInt
  x := p.drop 6

/-- `ReplyValid(b, target)` (R104). -/
def replyValid (c : Config) (b : List Byte) (target : Byte) : Bool :=
  match decode c b with
  | .ok p => (replyView p).address = target
  | .error _ => false

end Codec
end Sys2Proof
end

