-- ==== Sys2Proof/Syntax.lean ====
section
/-!
DEFINITION. The instructions: one constructor per row of spec/opcode_table.json.
An operand is what the row's fields hold; bits a row calls ignored are no operand (spec/30_encoding.md R70, R71).
-/

namespace Sys2Proof

/-- The read/write operand registers (spec/10_state.md R11, R12). -/
inductive RWReg where
  | opc
  | typ
  | mot
  | adr
  | vlo
  | vhi
deriving DecidableEq, Repr

/-- The read-only indices of spec/20_memory.md R40: a status or result register, a view, or a cell of a buffer.
A buffer's block has 16 indices, so a cell number has four bits; which cells exist depends on P (WellFormed). -/
inductive ROReg where
  | st
  | rxn
  | csum
  | dval
  | rval
  | txb (i : BitVec 4)
  | rxb (i : BitVec 4)
  | pay (i : BitVec 4)
deriving DecidableEq, Repr

/-- What an index can name: a write-only port (R23, R24), a read/write register or a read-only one. -/
inductive Reg where
  | cmd
  | rxd
  | rw (r : RWReg)
  | ro (r : ROReg)
deriving DecidableEq, Repr

/-- The instructions of the opcode table, in its order. -/
inductive Instr where
  /-- `nop`, R120. -/
  | nop
  /-- `enc`, R92. -/
  | enc
  /-- `dec`, R101. -/
  | dec
  /-- `vfy`, R84. -/
  | vfy
  /-- `rxc`, R118. -/
  | rxc
  /-- `cle`, R119. -/
  | cle
  /-- `illegal`, R121: a write to CMD of a code 0x06 .. 0xFF. -/
  | illegal (code : Byte)
  /-- `push`, R117. -/
  | push (byte : Byte)
  /-- `wr.opc`, R115. -/
  | wrOpc (data : Byte)
  /-- `wr.typ`, R115. -/
  | wrTyp (data : Byte)
  /-- `wr.mot`, R115. -/
  | wrMot (data : Byte)
  /-- `wr.adr`, R115. -/
  | wrAdr (data : Byte)
  /-- `wr.vlo`, R115. -/
  | wrVlo (data : Word)
  /-- `wr.vhi`, R115. -/
  | wrVhi (data : Word)
  /-- `wr.ro`, R52: a write to a read-only index. -/
  | wrRo (r : ROReg)
  /-- `rd`, R116. -/
  | rd (r : Reg)
  /-- `FRAME.CMD`, R60: a command frame by its five fields. The reserved byte and the checksum byte are functions of
  them (R65, R80). -/
  | frameCmd (commandId type motorOrBank : Byte) (value : Word) (address : Byte)
  /-- `FRAME.REPLY`, R61: a reply frame, its three unnamed bytes and its checksum byte as they arrive. -/
  | frameReply (status address : Byte) (value : Word) (x0 x1 x2 checksum : Byte)
deriving DecidableEq, Repr

/-- What the host hands to the block: a transaction word (R69), or a whole wire frame of the table's format WIRE80 in
one of its two directions. The bits of a frame do not say the direction ("the block does not know which",
spec/95_test_vectors.md section 4.1), so the host does: DESIGN CHOICE, log entry 7. -/
inductive HostWord where
  | txn (w : TxnWord)
  | command (w : FrameWord)
  | reply (w : FrameWord)
deriving DecidableEq, Repr

end Sys2Proof
end

