-- ==== Sys2Proof/WellFormed.lean ====
section
/-!
DEFINITION. Which terms of Instr stand for a word of the opcode table: the rows' constraints.
-/

namespace Sys2Proof

/-- A cell of a buffer exists when its number is below the buffer's length: F, F and P (spec/20_memory.md R40). -/
def ROReg.wf (c : Config) : ROReg → Bool
  | .st => true
  | .rxn => true
  | .csum => true
  | .dval => true
  | .rval => true
  | .txb i => i.toNat < c.frameLen
  | .rxb i => i.toNat < c.frameLen
  | .pay i => i.toNat < c.payloadLen

def Reg.wf (c : Config) : Reg → Bool
  | .cmd => true
  | .rxd => true
  | .rw _ => true
  | .ro r => r.wf c

/-- The row's constraint: `illegal` has CODE in 0x06..0xFF, `wr.ro` and `rd` name a mapped index. -/
def Instr.wf (c : Config) : Instr → Bool
  | .nop => true
  | .enc => true
  | .dec => true
  | .vfy => true
  | .rxc => true
  | .cle => true
  | .illegal code => 6 ≤ code.toNat
  | .push _ => true
  | .wrOpc _ => true
  | .wrTyp _ => true
  | .wrMot _ => true
  | .wrAdr _ => true
  | .wrVlo _ => true
  | .wrVhi _ => true
  | .wrRo r => r.wf c
  | .rd r => r.wf c
  | .frameCmd _ _ _ _ _ => true
  | .frameReply _ _ _ _ _ _ _ => true

end Sys2Proof
end

