-- ==== Sys2Proof/Decode.lean ====
section
/-!
DEFINITION. The decoder of what the host hands over, total and rejecting by name, and the encoder.
Transaction words: spec/30_encoding.md R69 to R71 over the index map of spec/20_memory.md R40. Frames: R60, R61.
-/

namespace Sys2Proof

/-- Why a word is no instruction. -/
inductive DecodeError where
  /-- The index names no register (spec/20_memory.md R51). -/
  | unmappedIndex (idx : BitVec 7)
  /-- The word was given as a command frame and its reserved byte or its checksum byte is not R60's: log entry 8. -/
  | notACommandFrame (w : FrameWord)
deriving DecidableEq, Repr

/-- The register index map (R40). -/
def regAt (c : Config) (idx : BitVec 7) : Option Reg :=
  match idx.toNat with
  | 0x00 => some .cmd
  | 0x01 => some (.ro .st)
  | 0x02 => some (.rw .opc)
  | 0x03 => some (.rw .typ)
  | 0x04 => some (.rw .mot)
  | 0x05 => some (.rw .adr)
  | 0x06 => some (.rw .vlo)
  | 0x07 => some (.rw .vhi)
  | 0x08 => some .rxd
  | 0x09 => some (.ro .rxn)
  | 0x0A => some (.ro .csum)
  | 0x0B => some (.ro .dval)
  | 0x0C => some (.ro .rval)
  | n =>
    if 0x10 ≤ n ∧ n < 0x10 + c.frameLen then some (.ro (.txb (BitVec.ofNat 4 (n - 0x10))))
    else if 0x20 ≤ n ∧ n < 0x20 + c.frameLen then some (.ro (.rxb (BitVec.ofNat 4 (n - 0x20))))
    else if 0x30 ≤ n ∧ n < 0x30 + c.payloadLen then some (.ro (.pay (BitVec.ofNat 4 (n - 0x30))))
    else none

/-- The operation a code written to CMD selects (R70). -/
def commandAt (code : Byte) : Instr :=
  match code.toNat with
  | 0x00 => .nop
  | 0x01 => .enc
  | 0x02 => .dec
  | 0x03 => .vfy
  | 0x04 => .rxc
  | 0x05 => .cle
  | _ => .illegal code

/-- DATA[7:0], the byte a write to an 8-bit register or port keeps (R44, R71). -/
def dataByte (d : Word) : Byte := d.extractLsb' 0 8

/-- What a write transaction to a mapped index is (R70, R71). -/
def writeAt (r : Reg) (d : Word) : Instr :=
  match r with
  | .cmd => commandAt (dataByte d)
  | .rxd => .push (dataByte d)
  | .rw .opc => .wrOpc (dataByte d)
  | .rw .typ => .wrTyp (dataByte d)
  | .rw .mot => .wrMot (dataByte d)
  | .rw .adr => .wrAdr (dataByte d)
  | .rw .vlo => .wrVlo d
  | .rw .vhi => .wrVhi d
  | .ro r => .wrRo r

/-- W, bit 39 of a transaction word (R69). -/
def txnWrite (w : TxnWord) : Bool := w.getLsbD 39

/-- IDX, bits 38:32 (R69). -/
def txnIndex (w : TxnWord) : BitVec 7 := w.extractLsb' 32 7

/-- DATA, bits 31:0 (R69). -/
def txnData (w : TxnWord) : Word := w.extractLsb' 0 32

/-- The instruction of a transaction word: "every 40-bit word falls in exactly one row" (R71). -/
def decodeTxn (c : Config) (w : TxnWord) : Except DecodeError Instr :=
  match regAt c (txnIndex w) with
  | none => .error (.unmappedIndex (txnIndex w))
  | some r => .ok (if txnWrite w then writeAt r (txnData w) else .rd r)

/-- The 80 bits of a command frame (R60): the bit positions of the table for P = 9. -/
def commandWord (o t m : Byte) (v : Word) (a : Byte) : FrameWord :=
  o ++ t ++ m ++ v ++ a ++ Codec.rsvFill ++ Codec.checksum (Codec.payload Config.hardware o t m v a)

/-- The frame FRAME.CMD whose fields these 80 bits hold, whatever the reserved and the checksum byte are (R60). -/
def commandFields (w : FrameWord) : Instr :=
  .frameCmd (w.extractLsb' 72 8) (w.extractLsb' 64 8) (w.extractLsb' 56 8) (w.extractLsb' 24 32) (w.extractLsb' 16 8)

/-- The word is a command frame: the reserved byte is RSV_FILL and the last byte is the checksum (R60). -/
def isCommandFrame (w : FrameWord) : Bool :=
  w.extractLsb' 8 8 = Codec.rsvFill ∧
  w.extractLsb' 0 8 =
    Codec.checksum (Codec.payload Config.hardware (w.extractLsb' 72 8) (w.extractLsb' 64 8) (w.extractLsb' 56 8)
      (w.extractLsb' 24 32) (w.extractLsb' 16 8))

/-- A word given as a command frame. -/
def decodeCommand (w : FrameWord) : Except DecodeError Instr :=
  if isCommandFrame w then .ok (commandFields w) else .error (.notACommandFrame w)

/-- A word received as a reply frame (R61): all 80 bits are operands, so every word is one. -/
def decodeReply (w : FrameWord) : Instr :=
  .frameReply (w.extractLsb' 72 8) (w.extractLsb' 64 8) (w.extractLsb' 32 32) (w.extractLsb' 24 8) (w.extractLsb' 16 8)
    (w.extractLsb' 8 8) (w.extractLsb' 0 8)

/-- The decoder. -/
def decode (c : Config) : HostWord → Except DecodeError Instr
  | .txn w => decodeTxn c w
  | .command w => decodeCommand w
  | .reply w => .ok (decodeReply w)

/-- The index of a read/write register (R40). -/
def RWReg.index : RWReg → BitVec 7
  | .opc => 0x02
  | .typ => 0x03
  | .mot => 0x04
  | .adr => 0x05
  | .vlo => 0x06
  | .vhi => 0x07

/-- The index of a read-only register or cell: TXB[i] at 0x10 + i, RXB[i] at 0x20 + i, PAY[i] at 0x30 + i (R40). -/
def ROReg.index : ROReg → BitVec 7
  | .st => 0x01
  | .rxn => 0x09
  | .csum => 0x0A
  | .dval => 0x0B
  | .rval => 0x0C
  | .txb i => 1#3 ++ i
  | .rxb i => 2#3 ++ i
  | .pay i => 3#3 ++ i

/-- The index of a register (R40). -/
def Reg.index : Reg → BitVec 7
  | .cmd => 0x00
  | .rxd => 0x08
  | .rw r => r.index
  | .ro r => r.index

/-- A write transaction word, W = 1 (R69). -/
def writeWord (idx : BitVec 7) (d : Word) : HostWord := .txn (1#1 ++ idx ++ d)

/-- A read transaction word, W = 0 and DATA = 0, as the assembler emits it (R69). -/
def readWord (idx : BitVec 7) : HostWord := .txn (0#1 ++ idx ++ 0#32)

/-- A write of a byte; the ignored bits DATA[31:8] are emitted as 0: log entry 10. -/
def writeByteWord (idx : BitVec 7) (d : Byte) : HostWord := writeWord idx (d.setWidth 32)

/-- The encoder: the word of a well-formed instruction (R60, R61, R69 to R71). -/
def encode : Instr → HostWord
  | .nop => writeByteWord 0x00 0x00
  | .enc => writeByteWord 0x00 0x01
  | .dec => writeByteWord 0x00 0x02
  | .vfy => writeByteWord 0x00 0x03
  | .rxc => writeByteWord 0x00 0x04
  | .cle => writeByteWord 0x00 0x05
  | .illegal code => writeByteWord 0x00 code
  | .push byte => writeByteWord 0x08 byte
  | .wrOpc d => writeByteWord 0x02 d
  | .wrTyp d => writeByteWord 0x03 d
  | .wrMot d => writeByteWord 0x04 d
  | .wrAdr d => writeByteWord 0x05 d
  | .wrVlo d => writeWord 0x06 d
  | .wrVhi d => writeWord 0x07 d
  | .wrRo r => writeWord r.index 0
  | .rd r => readWord r.index
  | .frameCmd o t m v a => .command (commandWord o t m v a)
  | .frameReply s a v x0 x1 x2 k => .reply (s ++ a ++ v ++ x0 ++ x1 ++ x2 ++ k)

/-- A row of spec/opcode_table.json: the word has the row's bits where the row's mask (of FRAME.CMD and FRAME.REPLY:
its pattern) fixes them. -/
def matchesRow (i : Instr) (h : HostWord) : Bool :=
  let txn (mask value : TxnWord) : Bool := match h with
    | .txn w => w &&& mask = value
    | .command _ => false
    | .reply _ => false
  match i with
  | .nop => txn 0xFF000000FF 0x8000000000
  | .enc => txn 0xFF000000FF 0x8000000001
  | .dec => txn 0xFF000000FF 0x8000000002
  | .vfy => txn 0xFF000000FF 0x8000000003
  | .rxc => txn 0xFF000000FF 0x8000000004
  | .cle => txn 0xFF000000FF 0x8000000005
  | .illegal _ => txn 0xFF00000000 0x8000000000
  | .push _ => txn 0xFF00000000 0x8800000000
  | .wrOpc _ => txn 0xFF00000000 0x8200000000
  | .wrTyp _ => txn 0xFF00000000 0x8300000000
  | .wrMot _ => txn 0xFF00000000 0x8400000000
  | .wrAdr _ => txn 0xFF00000000 0x8500000000
  | .wrVlo _ => txn 0xFF00000000 0x8600000000
  | .wrVhi _ => txn 0xFF00000000 0x8700000000
  | .wrRo _ => txn 0x8000000000 0x8000000000
  | .rd _ => txn 0x8000000000 0x0000000000
  | .frameCmd _ _ _ _ _ => match h with
    | .txn _ => false
    | .command w => w &&& 0xFF00 = 0
    | .reply _ => false
  | .frameReply _ _ _ _ _ _ _ => match h with
    | .txn _ => false
    | .command _ => false
    | .reply _ => true

/-- The host word for bits numbered as spec/opcode_table.json numbers them: 40 bits are a transaction word; 80 bits are
a wire frame, a command frame where they meet FRAME.CMD's row, which is the narrower one, else a reply frame: DESIGN
CHOICE, log entry 7. -/
def tableWord (nbits w : Nat) : HostWord :=
  if nbits ≤ 40 then .txn (BitVec.ofNat 40 w)
  else if isCommandFrame (BitVec.ofNat 80 w) then .command (BitVec.ofNat 80 w)
  else .reply (BitVec.ofNat 80 w)

/-- The instruction the decoder reads from a word of the opcode table, for this hardware's P. -/
def decodeTableWord (nbits w : Nat) : Option Instr :=
  match decode Config.hardware (tableWord nbits w) with
  | .ok i => some i
  | .error _ => none

end Sys2Proof
end

