-- ==== Sys2Proof/Machine/State.lean ====
section
/-!
DEFINITION. The state: everything spec/10_state.md R10 gives the block, and the model's own fields around it (the
configuration, the host's program, the last bus answer), which are not state of the block. Reset: R29.
-/

namespace Sys2Proof.Machine

/-- The stored fields of the status register ST (R17); its other bits read 0 and store nothing. -/
structure Status where
  /-- TXV, bit 0: TXB holds an encoded frame (R18). -/
  txv : Bool
  /-- RXV, bit 1: PAY holds a decoded payload (R19). -/
  rxv : Bool
  /-- AM, bit 2: address match of the decoded reply (R20). -/
  am : Bool
  /-- ERR, bits 6:4: the error code of the most recent ENC, DEC, VFY or illegal command (R21). -/
  err : BitVec 3
  /-- SE, bit 8, sticky: an EncodeError has occurred (R22). -/
  se : Bool
  /-- SL, bit 9, sticky: a FrameLengthError has occurred (R22). -/
  sl : Bool
  /-- SC, bit 10, sticky: a ChecksumError has occurred (R22). -/
  sc : Bool
  /-- SI, bit 11, sticky: an illegal command has occurred (R22). -/
  si : Bool
deriving DecidableEq, Repr

/-- The state of the block: "exactly the following, and nothing else" (R10). -/
structure Block where
  /-- OPC, Frame.command_id (R11). -/
  opc : Byte
  /-- TYP, Frame.type (R11). -/
  typ : Byte
  /-- MOT, Frame.motor_or_bank (R11). -/
  mot : Byte
  /-- ADR, Frame.address, the request's target (R11). -/
  adr : Byte
  /-- VLO, the low half of the value operand (R12). -/
  vlo : Word
  /-- VHI, the high half of the value operand (R12). -/
  vhi : Word
  /-- RXN, the number of bytes pushed since the last RXC or reset, saturating (R14). -/
  rxn : Byte
  /-- CSUM, the checksum last computed (R16). -/
  csum : Byte
  /-- ST (R17). -/
  st : Status
  /-- TXB, F bytes: the last successfully encoded frame (R13). -/
  txb : List Byte
  /-- RXB, F bytes: the received bytes (R14). -/
  rxb : List Byte
  /-- PAY, P bytes: the payload of the last successfully decoded frame (R15). -/
  pay : List Byte
deriving DecidableEq, Repr

/-- What the host does next: hand over a word, or apply reset, an event "from outside the block" (spec/70_reset_and_hazards.md R150). -/
inductive HostEvent where
  | reset
  | word (h : HostWord)
deriving DecidableEq, Repr

/-- The machine: the block, and around it the model's own fields. -/
structure State where
  /-- The configuration argument P (spec/00_scope.md R4); no step writes it. Log entry 1. -/
  cfg : Config
  /-- The state of the block (R10). -/
  blk : Block
  /-- The host's program still to run, first to last: "a finite list of host transactions" (R26). Log entry 2. -/
  input : List HostEvent
  /-- The 32 bits the last event returned to the host, if it was a read (spec/43_buffer_control.md R116). Log entry 3. -/
  response : Option Word
deriving DecidableEq, Repr

/-- ST after reset: 0x0000 (R29). -/
def Status.reset : Status := ⟨false, false, false, 0, false, false, false, false⟩

/-- The block after reset: every stored bit is 0 (R29). -/
def Block.reset (c : Config) : Block where
  opc := 0
  typ := 0
  mot := 0
  adr := 0
  vlo := 0
  vhi := 0
  rxn := 0
  csum := 0
  st := Status.reset
  txb := List.replicate c.frameLen 0
  rxb := List.replicate c.frameLen 0
  pay := List.replicate c.payloadLen 0

/-- The machine after reset, for a given P: the host has nothing to issue and nothing was returned. -/
def State.resetFor (c : Config) : State where
  cfg := c
  blk := Block.reset c
  input := []
  response := none

/-- The machine right after reset, P = 9 (R29, R4). -/
def State.reset : State := State.resetFor Config.hardware

/-- The reasons a step stops with a fault: none. "No behaviour of the block is `any value`, `fault` or `stuck`"
(spec/93_implementation_defined.md section 1); an error of the block is a next state (spec/60_exceptions.md R136). -/
inductive Fault where
deriving DecidableEq, Repr

/-- The reasons the model refuses a step. -/
inductive Refusal where
  /-- Raised by an arm of exec that has no meaning yet (none has). Safe: nothing is claimed of it. -/
  | notModelled (mnemonic : String)
  /-- Raised by a read or write of an index that names no register: "A model refuses such a transaction"
  (spec/20_memory.md R51, spec/93_implementation_defined.md U1). Safe: log entry 9. -/
  | unmappedIndex (idx : BitVec 7)
  /-- Raised by step on a word that the host hands over as a command frame and whose reserved or checksum byte is not
  spec/30_encoding.md R60's. Safe: log entry 8. -/
  | notACommandFrame (w : FrameWord)
deriving DecidableEq, Repr

end Sys2Proof.Machine
end

