-- ==== Sys2Proof/Machine/Flags.lean ====
section
/-!
DEFINITION. The status register ST (spec/10_state.md R17 to R22) and the error codes (spec/60_exceptions.md R130).
-/

namespace Sys2Proof.Machine

/-- ST as the host reads it: TXV 0, RXV 1, AM 2, ERR 6:4, SE 8, SL 9, SC 10, SI 11, every other bit 0 (R17). -/
def Status.word (t : Status) : BitVec 16 :=
  0#4 ++ BitVec.ofBool t.si ++ BitVec.ofBool t.sc ++ BitVec.ofBool t.sl ++ BitVec.ofBool t.se ++
    0#1 ++ t.err ++ 0#1 ++ BitVec.ofBool t.am ++ BitVec.ofBool t.rxv ++ BitVec.ofBool t.txv

/-- The code of an error in ST.ERR (R130). -/
def errorCode : ErrorKind → BitVec 3
  | .encodeError => 1
  | .frameLengthError => 2
  | .checksumError => 3
  | .illegalCommand => 4

/-- ST.ERR <- 0, when an ENC, DEC or VFY succeeded (R21). The sticky flags stay (R22). -/
def Status.succeed (t : Status) : Status := { t with err := 0 }

/-- ST.ERR <- the error's code, and its sticky flag <- 1 (R21, R22): what every error writes. -/
def Status.fail (e : ErrorKind) (t : Status) : Status :=
  match e with
  | .encodeError => { t with err := errorCode .encodeError, se := true }
  | .frameLengthError => { t with err := errorCode .frameLengthError, sl := true }
  | .checksumError => { t with err := errorCode .checksumError, sc := true }
  | .illegalCommand => { t with err := errorCode .illegalCommand, si := true }

/-- What CLE clears: ERR and the four sticky flags (spec/43_buffer_control.md R119). -/
def Status.clear (t : Status) : Status :=
  { t with err := 0, se := false, sl := false, sc := false, si := false }

end Sys2Proof.Machine
end

