-- ==== Sys2Proof/Machine/Operands.lean ====
section
/-!
DEFINITION. Reading and writing what an index names, and the value operand: spec/10_state.md R12, R25,
spec/20_memory.md R44, spec/43_buffer_control.md R115, R116.
-/

namespace Sys2Proof.Machine

/-- VIN = sext_64(VHI:VLO), the value operand (R12). -/
def Block.vin (b : Block) : Int := (b.vhi ++ b.vlo).toInt

/-- DVAL, the pattern of the Frame view's value (R25). -/
def Block.dval (b : Block) : Word := Codec.frameValue b.pay

/-- RVAL, the pattern of the Reply view's value (R25). -/
def Block.rval (b : Block) : Word := Codec.replyValue b.pay

/-- A register's value on the 32-bit bus: zero-extended (R44). -/
def busWord {n : Nat} (v : BitVec n) : Word := v.setWidth 32

/-- What a read of a read-only register or cell returns (R116); none where there is no such cell (R51). -/
def Block.readRO (b : Block) : ROReg → Option Word
  | .st => some (busWord b.st.word)
  | .rxn => some (busWord b.rxn)
  | .csum => some (busWord b.csum)
  | .dval => some b.dval
  | .rval => some b.rval
  | .txb i => b.txb[i.toNat]?.map busWord
  | .rxb i => b.rxb[i.toNat]?.map busWord
  | .pay i => b.pay[i.toNat]?.map busWord

/-- What a read of an operand register returns (R116). -/
def Block.readRW (b : Block) : RWReg → Word
  | .opc => busWord b.opc
  | .typ => busWord b.typ
  | .mot => busWord b.mot
  | .adr => busWord b.adr
  | .vlo => b.vlo
  | .vhi => b.vhi

/-- RD (R116): CMD and RXD read as 0 (R52). -/
def Block.read (b : Block) : Reg → Option Word
  | .cmd => some 0
  | .rxd => some 0
  | .rw r => some (b.readRW r)
  | .ro r => b.readRO r

/-- WR (R115): a register of width w keeps data bits w-1:0 (R44). -/
def Block.write (b : Block) (r : RWReg) (d : Word) : Block :=
  match r with
  | .opc => { b with opc := d.extractLsb' 0 8 }
  | .typ => { b with typ := d.extractLsb' 0 8 }
  | .mot => { b with mot := d.extractLsb' 0 8 }
  | .adr => { b with adr := d.extractLsb' 0 8 }
  | .vlo => { b with vlo := d }
  | .vhi => { b with vhi := d }

/-- The two halves of an integer v presented as the value operand: VLO <- tc_64(v)[31:0], VHI <- tc_64(v)[63:32] (R12, `ldv` of
spec/30_encoding.md R74). -/
def valueLow (v : Int) : Word := (BitVec.ofInt 64 v).extractLsb' 0 32

def valueHigh (v : Int) : Word := (BitVec.ofInt 64 v).extractLsb' 32 32

end Sys2Proof.Machine
end

