-- ==== Sys2Proof/Machine/Ops.lean ====
section
/-!
DEFINITION. The operations of the block, each a function of the block's state alone: raising an error
(spec/60_exceptions.md R136), ENC (spec/41_encode.md R92), DEC (spec/42_decode.md R101), VFY (spec/40_checksum.md R84), PUSH, RXC, CLE
(spec/43_buffer_control.md R117 to R119), and the sequences of spec/30_encoding.md R74.
-/

namespace Sys2Proof.Machine

/-- The rows of R136: an error and the operation it is raised by. A checksum error carries the computed checksum. -/
inductive Raised where
  | encodeError
  | frameLengthInDec
  | frameLengthInVfy
  | checksumInDec (computed : Byte)
  | checksumInVfy (computed : Byte)
  | illegalCommand
deriving DecidableEq, Repr

/-- `raise E`: "does exactly this and nothing else" (R136). It is the block's whole exception entry: no control
transfer, no saved program counter, no mode change. There is no return from it (R138): the next transaction runs at once. -/
def Block.raise (b : Block) : Raised → Block
  | .encodeError => { b with st := { b.st.fail .encodeError with txv := false } }
  | .frameLengthInDec => { b with st := { b.st.fail .frameLengthError with rxv := false, am := false } }
  | .frameLengthInVfy => { b with st := b.st.fail .frameLengthError }
  | .checksumInDec k => { b with st := { b.st.fail .checksumError with rxv := false, am := false }, csum := k }
  | .checksumInVfy k => { b with st := b.st.fail .checksumError, csum := k }
  | .illegalCommand => { b with st := b.st.fail .illegalCommand }

/-- ENC (R92). -/
def Block.enc (c : Config) (b : Block) : Block :=
  match Codec.encode c b.opc b.typ b.mot b.vin b.adr with
  | .error _ => b.raise .encodeError
  | .ok f =>
    { b with
      txb := f
      csum := Codec.byteAt f c.payloadLen
      st := { b.st.succeed with txv := true } }

/-- The checksum of the received payload, Checksum(RXB[0..P-1]), which DEC and VFY compute (R84, R101). -/
def Block.computed (c : Config) (b : Block) : Byte := Codec.checksum (b.rxb.take c.payloadLen)

/-- DEC (R101): the length first, then the checksum (R135). -/
def Block.dec (c : Config) (b : Block) : Block :=
  if b.rxn.toNat ≠ c.frameLen then
    b.raise .frameLengthInDec
  else if b.computed c ≠ Codec.byteAt b.rxb c.payloadLen then
    b.raise (.checksumInDec (b.computed c))
  else
    { b with
      csum := b.computed c
      pay := b.rxb.take c.payloadLen
      st := { b.st.succeed with rxv := true, am := Codec.byteAt b.rxb 1 = b.adr } }

/-- VFY (R84). -/
def Block.vfy (c : Config) (b : Block) : Block :=
  if b.rxn.toNat ≠ c.frameLen then
    b.raise .frameLengthInVfy
  else if b.computed c ≠ Codec.byteAt b.rxb c.payloadLen then
    b.raise (.checksumInVfy (b.computed c))
  else
    { b with csum := b.computed c, st := b.st.succeed }

/-- PUSH (R117): bytes beyond F are not stored, RXN saturates at 255. -/
def Block.push (c : Config) (b : Block) (d : Byte) : Block :=
  { b with
    rxb := if b.rxn.toNat < c.frameLen then b.rxb.set b.rxn.toNat d else b.rxb
    rxn := if b.rxn.toNat < 255 then b.rxn + 1 else b.rxn }

/-- RXC (R118): RXB keeps its bytes. -/
def Block.rxc (b : Block) : Block := { b with rxn := 0 }

/-- CLE (R119). -/
def Block.cle (b : Block) : Block := { b with st := b.st.clear }

/-- `pushf b0 b1 ... b(n-1)`: the bytes in that order (R74). -/
def Block.pushAll (c : Config) (b : Block) (bytes : List Byte) : Block := bytes.foldl (Block.push c) b

/-- `ldf o, t, m, v, a`: the five fields into the operand registers (R74). -/
def Block.loadFields (b : Block) (o t m : Byte) (v : Int) (a : Byte) : Block :=
  ((((((b.write .opc (busWord o)).write .typ (busWord t)).write .mot (busWord m)).write .vlo (valueLow v)).write .vhi
    (valueHigh v)).write .adr (busWord a))

/-- The document's `encode(frame)`: "`ldf` + `enc`" (R74). The reads that follow it there change nothing. -/
def Block.sendFrame (c : Config) (b : Block) (o t m : Byte) (v : Int) (a : Byte) : Block :=
  (b.loadFields o t m v a).enc c

/-- The document's `decode(bytes)`: "`rxc` + `pushf bytes` + `dec`" (R74). -/
def Block.receive (c : Config) (b : Block) (bytes : List Byte) : Block := ((b.rxc).pushAll c bytes).dec c

/-- The end of an event that leaves the block in state b and returns nothing to the host. -/
def State.commit (s : State) (b : Block) : State := { s with blk := b, response := none }

/-- The end of a read: the word v goes to the host, the block is as it was (spec/20_memory.md R46). -/
def State.answer (s : State) (v : Word) : State := { s with response := some v }

end Sys2Proof.Machine
end

