-- ==== Sys2Proof/Machine/Access.lean ====
section
/-!
DEFINITION. Register access: WR to the six operand registers (spec/43_buffer_control.md R115), a write to a read-only index
(spec/20_memory.md R52) and RD (R116).
-/

namespace Sys2Proof.Machine

/-- `wr OPC` (R115). -/
def execWrOpc (d : Byte) (s : State) : Host.Outcome State Fault Refusal := .next (s.commit (s.blk.write .opc (busWord d)))

/-- `wr TYP` (R115). -/
def execWrTyp (d : Byte) (s : State) : Host.Outcome State Fault Refusal := .next (s.commit (s.blk.write .typ (busWord d)))

/-- `wr MOT` (R115). -/
def execWrMot (d : Byte) (s : State) : Host.Outcome State Fault Refusal := .next (s.commit (s.blk.write .mot (busWord d)))

/-- `wr ADR` (R115). -/
def execWrAdr (d : Byte) (s : State) : Host.Outcome State Fault Refusal := .next (s.commit (s.blk.write .adr (busWord d)))

/-- `wr VLO` (R115). -/
def execWrVlo (d : Word) (s : State) : Host.Outcome State Fault Refusal := .next (s.commit (s.blk.write .vlo d))

/-- `wr VHI` (R115). -/
def execWrVhi (d : Word) (s : State) : Host.Outcome State Fault Refusal := .next (s.commit (s.blk.write .vhi d))

/-- A write to a read-only index: "no state changes and no error is recorded" (R52). A cell that does not exist is unmapped (R51). -/
def execWrRo (r : ROReg) (s : State) : Host.Outcome State Fault Refusal :=
  match s.blk.readRO r with
  | some _ => .next (s.commit s.blk)
  | none => .refused (.unmappedIndex r.index)

/-- RD (R116). A cell that does not exist is unmapped (R51). -/
def execRd (r : Reg) (s : State) : Host.Outcome State Fault Refusal :=
  match s.blk.read r with
  | some v => .next (s.answer v)
  | none => .refused (.unmappedIndex r.index)

end Sys2Proof.Machine
end

