-- ==== Sys2Proof/Machine/Coding.lean ====
section
/-!
DEFINITION. The codec's operations: ENC (spec/41_encode.md R92), DEC (spec/42_decode.md R101), VFY (spec/40_checksum.md R84).
-/

namespace Sys2Proof.Machine

/-- ENC (R92). -/
def execEnc (s : State) : Host.Outcome State Fault Refusal := .next (s.commit (s.blk.enc s.cfg))

/-- DEC (R101). -/
def execDec (s : State) : Host.Outcome State Fault Refusal := .next (s.commit (s.blk.dec s.cfg))

/-- VFY (R84). -/
def execVfy (s : State) : Host.Outcome State Fault Refusal := .next (s.commit (s.blk.vfy s.cfg))

end Sys2Proof.Machine
end

