-- ==== Sys2Proof/Machine/Control.lean ====
section
/-!
DEFINITION. The control operations: NOP, CLE and an illegal command code (spec/43_buffer_control.md R119 to R121).
-/

namespace Sys2Proof.Machine

/-- NOP: "No state changes, ST.ERR included" (R120). -/
def execNop (s : State) : Host.Outcome State Fault Refusal := .next (s.commit s.blk)

/-- CLE (R119). -/
def execCle (s : State) : Host.Outcome State Fault Refusal := .next (s.commit s.blk.cle)

/-- A write to CMD of an illegal code: raises IllegalCommand, whatever the code (R121: the code written is not kept, R130). -/
def execIllegal (_code : Byte) (s : State) : Host.Outcome State Fault Refusal :=
  .next (s.commit (s.blk.raise .illegalCommand))

end Sys2Proof.Machine
end

