-- ==== Sys2Proof/Machine/Frames.lean ====
section
/-!
DEFINITION. The two wire-frame rows of the opcode table, run as the two functions of the document that take and give
them: spec/30_encoding.md R74. The block's own unit of execution is the transaction (spec/10_state.md R26), so each is the
sequence of transactions R74 writes for it, in one step: DESIGN CHOICE, log entry 6.
-/

namespace Sys2Proof.Machine

/-- FRAME.CMD, host to device (R60): the document's `encode(frame)`, `ldf` then `enc` (R74). The 32-bit value is read as
two's complement (R63). -/
def execFrameCmd (o t m : Byte) (v : Word) (a : Byte) (s : State) : Host.Outcome State Fault Refusal :=
  .next (s.commit (s.blk.sendFrame s.cfg o t m v.toInt a))

/-- The ten bytes of a reply frame in wire order (R61). -/
def replyBytes (status address : Byte) (v : Word) (x0 x1 x2 k : Byte) : List Byte :=
  [status, address] ++ Codec.valueBytes v ++ [x0, x1, x2, k]

/-- FRAME.REPLY, device to host (R61): the document's `decode(bytes)`, `rxc`, ten pushes, `dec` (R74). -/
def execFrameReply (status address : Byte) (v : Word) (x0 x1 x2 k : Byte) (s : State) : Host.Outcome State Fault Refusal :=
  .next (s.commit (s.blk.receive s.cfg (replyBytes status address v x0 x1 x2 k)))

end Sys2Proof.Machine
end

