-- ==== Sys2Proof/Machine/Receive.lean ====
section
/-!
DEFINITION. The receive buffer: PUSH and RXC (spec/43_buffer_control.md R117, R118).
-/

namespace Sys2Proof.Machine

/-- PUSH: a write to RXD (R117). -/
def execPush (byte : Byte) (s : State) : Host.Outcome State Fault Refusal := .next (s.commit (s.blk.push s.cfg byte))

/-- RXC (R118). -/
def execRxc (s : State) : Host.Outcome State Fault Refusal := .next (s.commit s.blk.rxc)

end Sys2Proof.Machine
end

