-- ==== Sys2Proof/Machine/Dispatch.lean ====
section
/-!
DEFINITION. The meaning of every instruction: one arm per row of spec/opcode_table.json.
-/

namespace Sys2Proof.Machine

def exec (i : Instr) (s : State) : Host.Outcome State Fault Refusal :=
  match i with
  | .nop => Sys2Proof.Machine.execNop s
  | .enc => Sys2Proof.Machine.execEnc s
  | .dec => Sys2Proof.Machine.execDec s
  | .vfy => Sys2Proof.Machine.execVfy s
  | .rxc => Sys2Proof.Machine.execRxc s
  | .cle => Sys2Proof.Machine.execCle s
  | .illegal code => Sys2Proof.Machine.execIllegal code s
  | .push byte => Sys2Proof.Machine.execPush byte s
  | .wrOpc d => Sys2Proof.Machine.execWrOpc d s
  | .wrTyp d => Sys2Proof.Machine.execWrTyp d s
  | .wrMot d => Sys2Proof.Machine.execWrMot d s
  | .wrAdr d => Sys2Proof.Machine.execWrAdr d s
  | .wrVlo d => Sys2Proof.Machine.execWrVlo d s
  | .wrVhi d => Sys2Proof.Machine.execWrVhi d s
  | .wrRo r => Sys2Proof.Machine.execWrRo r s
  | .rd r => Sys2Proof.Machine.execRd r s
  | .frameCmd o t m v a => Sys2Proof.Machine.execFrameCmd o t m v a s
  | .frameReply st a v x0 x1 x2 k => Sys2Proof.Machine.execFrameReply st a v x0 x1 x2 k s

end Sys2Proof.Machine
end

