-- ==== Sys2Proof/Machine/Fetch.lean ====
section
/-!
DEFINITION. What the host does next: taking the next event off its program, reset, and the name of a refused word.
-/

namespace Sys2Proof.Machine

/-- The next event the host issues, and the machine with the rest of the program: program order (spec/20_memory.md R48). -/
def State.nextEvent (s : State) : Option (HostEvent × State) :=
  match s.input with
  | [] => none
  | e :: rest => some (e, { s with input := rest })

/-- Reset: "nothing survives reset" (spec/70_reset_and_hazards.md R150); the host's program goes on. -/
def State.applyReset (s : State) : State := s.commit (Block.reset s.cfg)

/-- The name under which a word that is no instruction is refused. -/
def refusalOf : DecodeError → Refusal
  | .unmappedIndex idx => .unmappedIndex idx
  | .notACommandFrame w => .notACommandFrame w

/-- The machine with this word of the opcode table put before what the host has still to issue. -/
def State.withWord (s : State) (nbits w : Nat) : State :=
  { s with input := .word (tableWord nbits w) :: s.input }

end Sys2Proof.Machine
end

