-- ==== Sys2Proof/Machine/Step.lean ====
section
/-!
DEFINITION. One step: the next event of the host's program takes effect completely (spec/20_memory.md R47), in the order the
host issues them (R48). The block fetches no instruction (R50).
-/

namespace Sys2Proof.Machine

/-- One step. With nothing to do the block "simply holds its state" (spec/60_exceptions.md R142): log entry 4. -/
def step (s : State) : Host.Outcome State Fault Refusal :=
  match s.nextEvent with
  | none => .next s
  | some (.reset, s') => .next s'.applyReset
  | some (.word h, s') =>
    match decode s'.cfg h with
    | .ok i => exec i s'
    | .error e => .refused (refusalOf e)

/-- The machine that runs this word of the opcode table next (it stands for the host issuing it: log entry 2). -/
def State.withFetchWord (s : State) (nbits w : Nat) : State := s.withWord nbits w

end Sys2Proof.Machine
end

