-- ==== Sys2Proof/Safety.lean ====
section
/-!
DEFINITION. The terms in which claims about the block are made: the invariant of a legal state, a run of instructions, the
received input, a run without errors, the bytes of a wire frame, and the words of the register index map.
-/

namespace Sys2Proof.Machine

/-- What every reachable state of the machine satisfies: the sizes of spec/10_state.md R10, and what the fields of ST say (R18 to
R22). -/
structure State.Inv (s : State) : Prop where
  /-- 8 <= P <= 15 (spec/00_scope.md R4). -/
  admissible : s.cfg.Admissible
  /-- TXB has F cells (R10). -/
  txb_length : s.blk.txb.length = s.cfg.frameLen
  /-- RXB has F cells (R10). -/
  rxb_length : s.blk.rxb.length = s.cfg.frameLen
  /-- PAY has P cells (R10). -/
  pay_length : s.blk.pay.length = s.cfg.payloadLen
  /-- "Codes 5, 6 and 7 are never produced" (R21). -/
  err_le : s.blk.st.err ≤ 4#3
  /-- An error code stands beside its sticky flag: only CLE and reset clear the flag, and they clear ERR too (R21, R22). -/
  err_sticky :
    (s.blk.st.err = 1 → s.blk.st.se = true) ∧ (s.blk.st.err = 2 → s.blk.st.sl = true) ∧
    (s.blk.st.err = 3 → s.blk.st.sc = true) ∧ (s.blk.st.err = 4 → s.blk.st.si = true)
  /-- After an EncodeError TXB is not valid until an ENC succeeds (R18). -/
  encode_error_invalid : s.blk.st.err = 1 → s.blk.st.txv = false
  /-- An address match is one of a decoded reply (R20). -/
  am_decoded : s.blk.st.am = true → s.blk.st.rxv = true
  /-- "Its content is an encoded frame exactly when ST.TXV = 1" (R13, R18). -/
  txv_encoded : s.blk.st.txv = true →
    ∃ (o t m : Byte) (v : Int) (a : Byte), Codec.encode s.cfg o t m v a = .ok s.blk.txb

/-- No error has been raised since the last CLE or reset: the premise of spec/60_exceptions.md R138, "all four sticky flags
are 0". -/
def State.NoError (s : State) : Prop :=
  s.blk.st.se = false ∧ s.blk.st.sl = false ∧ s.blk.st.sc = false ∧ s.blk.st.si = false

/-- The instructions in that order, stopping at the first that does not complete. -/
def execList : List Instr → State → Host.Outcome State Fault Refusal
  | [], s => .next s
  | i :: is, s =>
    match exec i s with
    | .next t => execList is t
    | .fault r => .fault r
    | .refused r => .refused r

/-- The received input, the input of DEC and VFY (R14): RXB[0..RXN-1] when RXN <= F, else RXN bytes whose first F are RXB.
The bytes past F are lost, so a claim about the input holds for every `lost`: log entry 11. -/
def State.received (s : State) (lost : List Byte) : List Byte :=
  if s.blk.rxn.toNat ≤ s.cfg.frameLen then s.blk.rxb.take s.blk.rxn.toNat
  else s.blk.rxb ++ lost.take (s.blk.rxn.toNat - s.cfg.frameLen)

/-- The ten bytes of a wire frame, position 0 in bits 79:72 (spec/30_encoding.md R60). -/
def wireBytes (w : FrameWord) : List Byte := (List.range 10).map fun i => w.extractLsb' (72 - 8 * i) 8

/-- An index is mapped: the table of spec/20_memory.md R40, as ranges of numbers. -/
abbrev Mapped (c : Config) (n : Nat) : Prop :=
  n ≤ 0x0C ∨ (0x10 ≤ n ∧ n < 0x10 + c.frameLen) ∨ (0x20 ≤ n ∧ n < 0x20 + c.frameLen) ∨
    (0x30 ≤ n ∧ n < 0x30 + c.payloadLen)

/-- The read words of spec/20_memory.md R40 in R40's own numbers: the first byte is the index (W = 0), DATA is ignored (R71). -/
def ReadWordsOfTheMap (c : Config) : Prop :=
  ∀ d : Word,
    decode c (.txn (0x00#8 ++ d)) = .ok (.rd .cmd) ∧
    decode c (.txn (0x01#8 ++ d)) = .ok (.rd (.ro .st)) ∧
    decode c (.txn (0x02#8 ++ d)) = .ok (.rd (.rw .opc)) ∧
    decode c (.txn (0x03#8 ++ d)) = .ok (.rd (.rw .typ)) ∧
    decode c (.txn (0x04#8 ++ d)) = .ok (.rd (.rw .mot)) ∧
    decode c (.txn (0x05#8 ++ d)) = .ok (.rd (.rw .adr)) ∧
    decode c (.txn (0x06#8 ++ d)) = .ok (.rd (.rw .vlo)) ∧
    decode c (.txn (0x07#8 ++ d)) = .ok (.rd (.rw .vhi)) ∧
    decode c (.txn (0x08#8 ++ d)) = .ok (.rd .rxd) ∧
    decode c (.txn (0x09#8 ++ d)) = .ok (.rd (.ro .rxn)) ∧
    decode c (.txn (0x0A#8 ++ d)) = .ok (.rd (.ro .csum)) ∧
    decode c (.txn (0x0B#8 ++ d)) = .ok (.rd (.ro .dval)) ∧
    decode c (.txn (0x0C#8 ++ d)) = .ok (.rd (.ro .rval)) ∧
    (∀ i : BitVec 4, i.toNat < c.frameLen →
      decode c (.txn ((0x10#8 + i.setWidth 8) ++ d)) = .ok (.rd (.ro (.txb i))) ∧
      decode c (.txn ((0x20#8 + i.setWidth 8) ++ d)) = .ok (.rd (.ro (.rxb i)))) ∧
    (∀ i : BitVec 4, i.toNat < c.payloadLen →
      decode c (.txn ((0x30#8 + i.setWidth 8) ++ d)) = .ok (.rd (.ro (.pay i))))

/-- The write words to the read-only indices of R40, in R40's own numbers: the first byte is 0x80 + the index (W = 1), DATA is
dropped (R52, R71). -/
def IgnoredWriteWordsOfTheMap (c : Config) : Prop :=
  ∀ d : Word,
    decode c (.txn (0x81#8 ++ d)) = .ok (.wrRo .st) ∧
    decode c (.txn (0x89#8 ++ d)) = .ok (.wrRo .rxn) ∧
    decode c (.txn (0x8A#8 ++ d)) = .ok (.wrRo .csum) ∧
    decode c (.txn (0x8B#8 ++ d)) = .ok (.wrRo .dval) ∧
    decode c (.txn (0x8C#8 ++ d)) = .ok (.wrRo .rval) ∧
    (∀ i : BitVec 4, i.toNat < c.frameLen →
      decode c (.txn ((0x90#8 + i.setWidth 8) ++ d)) = .ok (.wrRo (.txb i)) ∧
      decode c (.txn ((0xA0#8 + i.setWidth 8) ++ d)) = .ok (.wrRo (.rxb i))) ∧
    (∀ i : BitVec 4, i.toNat < c.payloadLen →
      decode c (.txn ((0xB0#8 + i.setWidth 8) ++ d)) = .ok (.wrRo (.pay i)))

end Sys2Proof.Machine
end

