-- ==== Sys2Proof/Certificates/Slice0/Obligations.lean ====
section
/-!
DEFINITION. The statements for the provers. Each docstring names the rule of spec/ it formalises. Where a rule applies a
decision of the spec (D<n> of spec/92_eei_decisions.md) it is still the rule that is formalised; where a statement rests on a rule
the spec marks as derived, as general knowledge, or on a choice of this model, its docstring says so and its basis is
'derived'.
-/

open Sys2Proof Sys2Proof.Machine

/-! ### Encoding and decoding of host words -/

/-- Decode and encode agree: for every admissible P and every instruction of the table that is well-formed for it, decoding
its word gives it back. (The word formats are R60, R61, R69 to R71; the direction of a frame is the model's log entry 7.) -/
def Obligations.DecodeOfEncodeIsIdentity : Prop :=
  ∀ (c : Config) (i : Instr), c.Admissible → i.wf c = true → decode c (encode i) = .ok i

/-- The decoder of transaction words is total (R71): a word whose IDX is mapped by R40 is a well-formed instruction, a
word whose IDX is not is rejected under that index. -/
def Obligations.TransactionDecoderIsTotal : Prop :=
  ∀ (c : Config) (w : TxnWord), c.Admissible →
    (Mapped c (w.extractLsb' 32 7).toNat → ∃ i, decode c (.txn w) = .ok i ∧ i.wf c = true) ∧
    (¬ Mapped c (w.extractLsb' 32 7).toNat → decode c (.txn w) = .error (.unmappedIndex (w.extractLsb' 32 7)))

/-- Whatever is decoded, transaction word or frame, lies in the opcode table's row of the decoded instruction (mask and
match, R70, R71; the reserved byte of FRAME.CMD, R60) and meets the row's constraint. -/
def Obligations.DecodedWordLiesInItsTableRow : Prop :=
  ∀ (c : Config) (h : HostWord) (i : Instr), c.Admissible → decode c h = .ok i →
    matchesRow i h = true ∧ i.wf c = true

/-- R70: a write to CMD selects its operation by DATA[7:0], whatever DATA[31:8] holds. -/
def Obligations.CommandCodeSelectsOperation : Prop :=
  ∀ (c : Config) (hi : BitVec 24) (code : Byte),
    (code = 0 → decode c (.txn (0x80#8 ++ hi ++ code)) = .ok .nop) ∧
    (code = 1 → decode c (.txn (0x80#8 ++ hi ++ code)) = .ok .enc) ∧
    (code = 2 → decode c (.txn (0x80#8 ++ hi ++ code)) = .ok .dec) ∧
    (code = 3 → decode c (.txn (0x80#8 ++ hi ++ code)) = .ok .vfy) ∧
    (code = 4 → decode c (.txn (0x80#8 ++ hi ++ code)) = .ok .rxc) ∧
    (code = 5 → decode c (.txn (0x80#8 ++ hi ++ code)) = .ok .cle) ∧
    (6 ≤ code.toNat → decode c (.txn (0x80#8 ++ hi ++ code)) = .ok (.illegal code))

/-- The rows of R71: PUSH, the six operand writes, reads of any mapped index and writes of any read-only index, with the
ignored bits of each row at any value; every index is written out in R40's own numbers. The last two clauses say besides that
the encoder's index of a register is the one the decoder maps to it. -/
def Obligations.TransactionRowsDecode : Prop :=
  ∀ (c : Config) (x : BitVec 24) (b : Byte) (d : Word),
    decode c (.txn (0x88#8 ++ x ++ b)) = .ok (.push b) ∧
    decode c (.txn (0x82#8 ++ x ++ b)) = .ok (.wrOpc b) ∧
    decode c (.txn (0x83#8 ++ x ++ b)) = .ok (.wrTyp b) ∧
    decode c (.txn (0x84#8 ++ x ++ b)) = .ok (.wrMot b) ∧
    decode c (.txn (0x85#8 ++ x ++ b)) = .ok (.wrAdr b) ∧
    decode c (.txn (0x86#8 ++ d)) = .ok (.wrVlo d) ∧
    decode c (.txn (0x87#8 ++ d)) = .ok (.wrVhi d) ∧
    (c.Admissible → ReadWordsOfTheMap c ∧ IgnoredWriteWordsOfTheMap c) ∧
    (∀ r : Reg, c.Admissible → r.wf c = true → decode c (.txn (0#1 ++ r.index ++ d)) = .ok (.rd r)) ∧
    (∀ r : ROReg, c.Admissible → r.wf c = true → decode c (.txn (1#1 ++ r.index ++ d)) = .ok (.wrRo r))

/-- Words written out from R69 to R71, R60 and R61 decode to the instructions they stand for. P = 9 is fixed, as it is in
decodeTableWord (log entry 1). That the two words of 80 bits are read as a command frame and as a reply frame is the model's
choice (log entry 7): their bits do not tell the direction. -/
def Obligations.WordsOfTheSpecDecode : Prop :=
  decodeTableWord 40 0x8000000001 = some .enc ∧
  decodeTableWord 40 0x80000000FF = some (.illegal 0xFF) ∧
  decodeTableWord 40 0x8800000064 = some (.push 0x64) ∧
  decodeTableWord 40 0x8200000005 = some (.wrOpc 0x05) ∧
  decodeTableWord 40 0x810000FFFF = some (.wrRo .st) ∧
  decodeTableWord 40 0x1900000000 = some (.rd (.ro (.txb 9))) ∧
  decodeTableWord 40 0x1A00000000 = none ∧
  decodeTableWord 80 0x060102FFFFFFFE030007 = some (.frameCmd 6 1 2 0xFFFFFFFE 3) ∧
  decodeTableWord 80 0x6401FFFFFFFF0201066A = some (.frameReply 100 1 0xFFFFFFFF 2 1 6 0x6A)

/-! ### The checksum and the pure functions -/

/-- R80: the checksum is the sum of the byte values modulo 256, 0 of the empty sequence; and in an encoded frame it is
the byte after the payload and covers every payload byte. -/
def Obligations.ChecksumIsByteSumModulo256 : Prop :=
  (∀ b : List Byte, (Codec.checksum b).toNat = (b.map BitVec.toNat).sum % 256) ∧
  Codec.checksum [] = 0 ∧
  (∀ (c : Config) (o t m : Byte) (v : Int) (a : Byte) (f : List Byte), c.Admissible →
    Codec.encode c o t m v a = .ok f → f[c.payloadLen]? = some (Codec.checksum (f.take c.payloadLen)))

/-- The laws (a), (b), (c), (e) and (f) of R81, which the spec derives from R80. -/
def Obligations.ChecksumLaws : Prop :=
  (∀ b : List Byte, b.length = 9 → (b.map BitVec.toNat).sum ≤ 2295) ∧
  (∀ b : List Byte, b.foldl (fun acc x => acc + x) 0 = Codec.checksum b) ∧
  (∀ b b' : List Byte, b.Perm b' → Codec.checksum b = Codec.checksum b') ∧
  (∀ a b : List Byte, Codec.checksum (a ++ b) = Codec.checksum a + Codec.checksum b) ∧
  (∀ (c : Config) (f : List Byte), f.length = c.frameLen →
    (Codec.byteAt f c.payloadLen = Codec.checksum (f.take c.payloadLen) ↔
      Codec.checksum f - 2 * Codec.byteAt f c.payloadLen = 0))

/-- R82 (a), (b): a valid frame with exactly one byte replaced by a different one, at any position, the checksum byte
included, is no longer valid (the spec derives this from R80). -/
def Obligations.SingleSubstitutionInvalidates : Prop :=
  ∀ (c : Config) (f : List Byte) (k : Byte) (i : Nat) (x : Byte),
    Codec.validate c f = .ok k → i < c.frameLen → x ≠ Codec.byteAt f i →
    Codec.validate c (f.set i x) = .error .checksumError

/-- R82 (c), (d): changes that sum to 0 modulo 256 pass: two payload bytes by +d and -d, a payload byte and the checksum byte
both by +d, any reordering of the payload; and F zero bytes are a valid frame (derived by the spec from R80). -/
def Obligations.CompensatingChangesAreNotDetected : Prop :=
  ∀ (c : Config),
    (∀ (f : List Byte) (k d : Byte) (i j : Nat), Codec.validate c f = .ok k → i < c.payloadLen → j < c.payloadLen → i ≠ j →
      Codec.validate c ((f.set i (Codec.byteAt f i + d)).set j (Codec.byteAt f j - d)) = .ok k) ∧
    (∀ (f : List Byte) (k d : Byte) (i : Nat), Codec.validate c f = .ok k → i < c.payloadLen →
      Codec.validate c ((f.set i (Codec.byteAt f i + d)).set c.payloadLen (k + d)) = .ok (k + d)) ∧
    (∀ (f p : List Byte) (k : Byte), Codec.validate c f = .ok k → p.Perm (f.take c.payloadLen) →
      Codec.validate c (p ++ [k]) = .ok k) ∧
    Codec.validate c (List.replicate c.frameLen 0) = .ok 0

/-- R83: the length first, then the checksum against the byte after the payload. -/
def Obligations.ValidateTestsLengthThenChecksum : Prop :=
  ∀ (c : Config) (b : List Byte),
    (b.length ≠ c.frameLen → Codec.validate c b = .error .frameLengthError) ∧
    (∀ (p : List Byte) (k : Byte), p.length = c.payloadLen → b = p ++ [k] → Codec.checksum p ≠ k →
      Codec.validate c b = .error .checksumError) ∧
    (∀ (p : List Byte) (k : Byte), p.length = c.payloadLen → b = p ++ [k] → Codec.checksum p = k →
      Codec.validate c b = .ok k)

/-- R100: Decode is Validate followed by dropping the checksum byte; exactly two failures, the length first. -/
def Obligations.DecodeIsValidateDroppingChecksum : Prop :=
  ∀ (c : Config) (b : List Byte),
    (b.length ≠ c.frameLen → Codec.decode c b = .error .frameLengthError) ∧
    (∀ e, Codec.validate c b = .error e → Codec.decode c b = .error e) ∧
    (∀ k, Codec.validate c b = .ok k →
      ∃ p, Codec.decode c b = .ok p ∧ p.length = c.payloadLen ∧ b = p ++ [k])

/-- R90: in range, Encode gives the five fields in wire order, the value big-endian, P - 8 zero bytes and the checksum of
all of them; out of range it gives EncodeError (the numeric ends of the range are the spec's G1). -/
def Obligations.EncodeSerialisesFields : Prop :=
  ∀ (c : Config) (o t m : Byte) (v : Int) (a : Byte),
    (Codec.valueMin ≤ v → v ≤ Codec.valueMax →
      let w := BitVec.ofInt 32 v
      let p := [o, t, m, w.extractLsb' 24 8, w.extractLsb' 16 8, w.extractLsb' 8 8, w.extractLsb' 0 8, a] ++
        List.replicate (c.payloadLen - 8) 0
      Codec.encode c o t m v a = .ok (p ++ [Codec.checksum p]) ∧
        (c.Admissible → (p ++ [Codec.checksum p]).length = c.frameLen)) ∧
    (v < Codec.valueMin ∨ Codec.valueMax < v → Codec.encode c o t m v a = .error .encodeError)

/-- R91 (its range is from general knowledge, G1): Encode fails exactly below -2^31 and above 2^31 - 1, and for a 64-bit
operand that is exactly when bits 63:31 are not all equal. -/
def Obligations.EncodeRangeTest : Prop :=
  (∀ (c : Config) (o t m : Byte) (v : Int) (a : Byte),
    Codec.encode c o t m v a = .error .encodeError ↔ (v < -2 ^ 31 ∨ 2 ^ 31 - 1 < v)) ∧
  (∀ (c : Config) (o t m : Byte) (x : BitVec 64) (a : Byte),
    (∃ f, Codec.encode c o t m x.toInt a = .ok f) ↔
      (x.extractLsb' 31 33 = 0 ∨ x.extractLsb' 31 33 = BitVec.allOnes 33))

/-- R62 and R63 (two's complement is from general knowledge, G1): bytes to value and value to bytes are inverse, most
significant byte first. -/
def Obligations.ValueBytesAreInverse : Prop :=
  (∀ b0 b1 b2 b3 : Byte,
    (Codec.wordOf b0 b1 b2 b3).toNat = b0.toNat * 2 ^ 24 + b1.toNat * 2 ^ 16 + b2.toNat * 2 ^ 8 + b3.toNat ∧
    Codec.valueBytes (Codec.wordOf b0 b1 b2 b3) = [b0, b1, b2, b3]) ∧
  (∀ v : Int, Codec.valueMin ≤ v → v ≤ Codec.valueMax →
    ∃ b0 b1 b2 b3, Codec.valueBytes (BitVec.ofInt 32 v) = [b0, b1, b2, b3] ∧ (Codec.wordOf b0 b1 b2 b3).toInt = v)

/-- R94: every encoded frame passes validation with its own checksum byte, and Encode is injective, already on the
positions 0..7 (derived by the spec from R90). -/
def Obligations.EncodeIsValidAndInjective : Prop :=
  ∀ (c : Config) (o t m : Byte) (v : Int) (a : Byte) (f : List Byte), c.Admissible →
    Codec.encode c o t m v a = .ok f →
    Codec.validate c f = .ok (Codec.byteAt f c.payloadLen) ∧
    (∀ (o' t' m' : Byte) (v' : Int) (a' : Byte) (f' : List Byte), Codec.encode c o' t' m' v' a' = .ok f' →
      f.take 8 = f'.take 8 → o = o' ∧ t = t' ∧ m = m' ∧ v = v' ∧ a = a')

/-- R105, the document's round trip: decoding an encoded frame gives a payload whose Frame view is the five inputs and whose
reserved bytes are RSV_FILL, for every admissible P. -/
def Obligations.FrameRoundTrip : Prop :=
  ∀ (c : Config) (o t m : Byte) (v : Int) (a : Byte) (f : List Byte), c.Admissible →
    Codec.encode c o t m v a = .ok f →
    ∃ p, Codec.decode c f = .ok p ∧
      Codec.frameView p = ⟨o, t, m, v, a⟩ ∧ p.drop 8 = List.replicate (c.payloadLen - 8) 0

/-- R106, the document's checksum sensitivity: one byte of an encoded frame replaced by a different one, at any position,
makes Decode fail with ChecksumError. -/
def Obligations.EncodedFrameChecksumSensitivity : Prop :=
  ∀ (c : Config) (o t m : Byte) (v : Int) (a : Byte) (f : List Byte) (i : Nat) (x : Byte), c.Admissible →
    Codec.encode c o t m v a = .ok f → i < c.frameLen → x ≠ Codec.byteAt f i →
    Codec.decode c (f.set i x) = .error .checksumError

/-- R103: the Reply view of an accepted frame shows the bytes at the positions of R61: status 0, echoed address 1, value
2..5 big-endian, the unnamed bytes as they are; R102: the Frame view shows those of R60. -/
def Obligations.ViewsReadTheWirePositions : Prop :=
  ∀ b0 b1 b2 b3 b4 b5 b6 b7 : Byte, ∀ rest : List Byte,
    Codec.replyView (b0 :: b1 :: b2 :: b3 :: b4 :: b5 :: b6 :: b7 :: rest) =
      ⟨b0, b1, (b2 ++ b3 ++ b4 ++ b5 : BitVec 32).toInt, b6 :: b7 :: rest⟩ ∧
    Codec.frameView (b0 :: b1 :: b2 :: b3 :: b4 :: b5 :: b6 :: b7 :: rest) =
      ⟨b0, b1, b2, (b3 ++ b4 ++ b5 ++ b6 : BitVec 32).toInt, b7⟩

/-! ### The status register and the register interface -/

/-- R17: the layout of ST as the host reads it, the bits that read 0, and that a host write to index 0x01 (first byte 0x81) changes
nothing. -/
def Obligations.StatusRegisterLayout : Prop :=
  (∀ t : Status,
    t.word.getLsbD 0 = t.txv ∧ t.word.getLsbD 1 = t.rxv ∧ t.word.getLsbD 2 = t.am ∧ t.word.getLsbD 3 = false ∧
    t.word.extractLsb' 4 3 = t.err ∧ t.word.getLsbD 7 = false ∧ t.word.getLsbD 8 = t.se ∧ t.word.getLsbD 9 = t.sl ∧
    t.word.getLsbD 10 = t.sc ∧ t.word.getLsbD 11 = t.si ∧ t.word.extractLsb' 12 4 = 0) ∧
  (∀ (s : State) (d : Word), decode s.cfg (.txn (0x81#8 ++ d)) = .ok (.wrRo .st) ∧
    exec (.wrRo .st) s = .next { s with response := none })

/-- R116: which register a read word names, in R40's own numbers, and what its read returns, in a state whose buffers have their
sizes (R10); the block is left as it is. -/
def Obligations.ReadReturnsTheNamedRegister : Prop :=
  ∀ s : State, s.blk.txb.length = s.cfg.frameLen → s.blk.rxb.length = s.cfg.frameLen → s.blk.pay.length = s.cfg.payloadLen →
    (s.cfg.Admissible → ReadWordsOfTheMap s.cfg) ∧
    exec (.rd .cmd) s = .next { s with response := some 0 } ∧
    exec (.rd .rxd) s = .next { s with response := some 0 } ∧
    exec (.rd (.ro .st)) s = .next { s with response := some (s.blk.st.word.setWidth 32) } ∧
    exec (.rd (.rw .opc)) s = .next { s with response := some (s.blk.opc.setWidth 32) } ∧
    exec (.rd (.rw .typ)) s = .next { s with response := some (s.blk.typ.setWidth 32) } ∧
    exec (.rd (.rw .mot)) s = .next { s with response := some (s.blk.mot.setWidth 32) } ∧
    exec (.rd (.rw .adr)) s = .next { s with response := some (s.blk.adr.setWidth 32) } ∧
    exec (.rd (.rw .vlo)) s = .next { s with response := some s.blk.vlo } ∧
    exec (.rd (.rw .vhi)) s = .next { s with response := some s.blk.vhi } ∧
    exec (.rd (.ro .rxn)) s = .next { s with response := some (s.blk.rxn.setWidth 32) } ∧
    exec (.rd (.ro .csum)) s = .next { s with response := some (s.blk.csum.setWidth 32) } ∧
    (∀ p0 p1 p2 p3 p4 p5 p6 rest, s.blk.pay = p0 :: p1 :: p2 :: p3 :: p4 :: p5 :: p6 :: rest →
      exec (.rd (.ro .dval)) s = .next { s with response := some (p3 ++ p4 ++ p5 ++ p6) } ∧
      exec (.rd (.ro .rval)) s = .next { s with response := some (p2 ++ p3 ++ p4 ++ p5) }) ∧
    (∀ i : BitVec 4, i.toNat < s.cfg.frameLen →
      exec (.rd (.ro (.txb i))) s = .next { s with response := some ((s.blk.txb.getD i.toNat 0).setWidth 32) } ∧
      exec (.rd (.ro (.rxb i))) s = .next { s with response := some ((s.blk.rxb.getD i.toNat 0).setWidth 32) }) ∧
    (∀ i : BitVec 4, i.toNat < s.cfg.payloadLen →
      exec (.rd (.ro (.pay i))) s = .next { s with response := some ((s.blk.pay.getD i.toNat 0).setWidth 32) })

/-- R46, the first sentence: a read changes no state, and reading twice returns the same value. -/
def Obligations.ReadsHaveNoSideEffect : Prop :=
  ∀ (r : Reg) (s t : State), exec (.rd r) s = .next t →
    t.blk = s.blk ∧ t.cfg = s.cfg ∧ t.input = s.input ∧ exec (.rd r) t = .next t

/-- R52: a write to a read-only index (in R40's own numbers) changes nothing, and a read of a write-only index (0x00, 0x08) returns
0. -/
def Obligations.ReadOnlyWriteIsIgnored : Prop :=
  ∀ s : State, s.blk.txb.length = s.cfg.frameLen → s.blk.rxb.length = s.cfg.frameLen → s.blk.pay.length = s.cfg.payloadLen →
    (s.cfg.Admissible → IgnoredWriteWordsOfTheMap s.cfg) ∧
    (∀ d : Word, decode s.cfg (.txn (0x00#8 ++ d)) = .ok (.rd .cmd) ∧ decode s.cfg (.txn (0x08#8 ++ d)) = .ok (.rd .rxd)) ∧
    (∀ r : ROReg, r.wf s.cfg = true → exec (.wrRo r) s = .next { s with response := none }) ∧
    exec (.rd .cmd) s = .next { s with response := some 0 } ∧ exec (.rd .rxd) s = .next { s with response := some 0 }

/-- R51: a transaction, read or write, whose index the map of R40 leaves unmapped is refused (a stop of the model, which the
rule asks for). -/
def Obligations.UnmappedTransactionIsRefused : Prop :=
  ∀ (s : State) (w : TxnWord) (rest : List HostEvent),
    s.input = .word (.txn w) :: rest → ¬ Mapped s.cfg (w.extractLsb' 32 7).toNat →
    step s = .refused (.unmappedIndex (w.extractLsb' 32 7))

/-- R115: a write to an operand register sets that register to the data bits it keeps, and nothing else changes. -/
def Obligations.OperandWriteSetsOneRegister : Prop :=
  ∀ (s : State) (b : Byte) (d : Word),
    exec (.wrOpc b) s = .next { s with blk := { s.blk with opc := b }, response := none } ∧
    exec (.wrTyp b) s = .next { s with blk := { s.blk with typ := b }, response := none } ∧
    exec (.wrMot b) s = .next { s with blk := { s.blk with mot := b }, response := none } ∧
    exec (.wrAdr b) s = .next { s with blk := { s.blk with adr := b }, response := none } ∧
    exec (.wrVlo d) s = .next { s with blk := { s.blk with vlo := d }, response := none } ∧
    exec (.wrVhi d) s = .next { s with blk := { s.blk with vhi := d }, response := none } ∧
    decode s.cfg (.txn (0x82#8 ++ d)) = .ok (.wrOpc (d.extractLsb' 0 8)) ∧
    decode s.cfg (.txn (0x83#8 ++ d)) = .ok (.wrTyp (d.extractLsb' 0 8)) ∧
    decode s.cfg (.txn (0x84#8 ++ d)) = .ok (.wrMot (d.extractLsb' 0 8)) ∧
    decode s.cfg (.txn (0x85#8 ++ d)) = .ok (.wrAdr (d.extractLsb' 0 8)) ∧
    decode s.cfg (.txn (0x86#8 ++ d)) = .ok (.wrVlo d) ∧
    decode s.cfg (.txn (0x87#8 ++ d)) = .ok (.wrVhi d)

/-! ### The receive buffer and the control operations -/

/-- R117: a write to RXD pushes DATA[7:0]; PUSH stores the byte at RXN while RXN < F, counts up to 255, and changes
nothing else. -/
def Obligations.PushStoresAndCounts : Prop :=
  ∀ (s : State) (x : BitVec 24) (b : Byte),
    decode s.cfg (.txn (0x88#8 ++ x ++ b)) = .ok (.push b) ∧
    (s.blk.rxn.toNat < s.cfg.frameLen → s.cfg.Admissible →
      exec (.push b) s = .next { s with
        blk := { s.blk with rxb := s.blk.rxb.set s.blk.rxn.toNat b, rxn := s.blk.rxn + 1 }, response := none }) ∧
    (s.cfg.frameLen ≤ s.blk.rxn.toNat → s.blk.rxn ≠ 255 →
      exec (.push b) s = .next { s with blk := { s.blk with rxn := s.blk.rxn + 1 }, response := none }) ∧
    (s.blk.rxn = 255 → s.cfg.Admissible → exec (.push b) s = .next { s with response := none })

/-- R118: RXC, the write of 0x04 to CMD, sets RXN to 0 and changes nothing else. -/
def Obligations.RxcEmptiesTheCountOnly : Prop :=
  ∀ (s : State) (x : BitVec 24), decode s.cfg (.txn (0x80#8 ++ x ++ 4#8)) = .ok .rxc ∧
    exec .rxc s = .next { s with blk := { s.blk with rxn := 0 }, response := none }

/-- R119: CLE, the write of 0x05 to CMD, clears ERR and the four sticky flags and changes nothing else. -/
def Obligations.CleClearsTheErrorReport : Prop :=
  ∀ (s : State) (x : BitVec 24), decode s.cfg (.txn (0x80#8 ++ x ++ 5#8)) = .ok .cle ∧
    exec .cle s = .next { s with
    blk := { s.blk with st := { s.blk.st with err := 0, se := false, sl := false, sc := false, si := false } }
    response := none }

/-- R120: NOP, the write of 0x00 to CMD, changes no state, ST.ERR included. -/
def Obligations.NopChangesNothing : Prop :=
  ∀ (s : State) (x : BitVec 24), decode s.cfg (.txn (0x80#8 ++ x ++ 0#8)) = .ok .nop ∧
    exec .nop s = .next { s with response := none }

/-- R121: a write to CMD of a code 0x06 .. 0xFF is the instruction `illegal`, which sets ST.ERR to 4 and ST.SI, and changes
nothing else. -/
def Obligations.IllegalCommandIsReported : Prop :=
  ∀ (s : State) (hi : BitVec 24) (code : Byte), 6 ≤ code.toNat →
    decode s.cfg (.txn (0x80#8 ++ hi ++ code)) = .ok (.illegal code) ∧
    exec (.illegal code) s = .next { s with
      blk := { s.blk with st := { s.blk.st with err := 4, si := true } }, response := none }

/-- After RXC and n pushes (R14, R117, R118): RXN is n saturated at 255, the first F bytes stand in RXB in order, the other
cells keep their bytes, and nothing else has changed. -/
def Obligations.PushedBytesAreCountedAndStored : Prop :=
  ∀ (s : State) (bytes : List Byte), s.cfg.Admissible → s.blk.rxb.length = s.cfg.frameLen →
    execList (.rxc :: bytes.map .push) s = .next { s with
      blk := { s.blk with
        rxn := BitVec.ofNat 8 (min bytes.length 255)
        rxb := bytes.take s.cfg.frameLen ++ s.blk.rxb.drop bytes.length }
      response := none }

/-! ### ENC, DEC, VFY -/

/-- R92: ENC, the write of 0x01 to CMD, in both its endings, as the whole next state: on success TXB, CSUM, TXV and ERR; on
EncodeError ERR, SE and TXV. -/
def Obligations.EncEncodesTheOperands : Prop :=
  ∀ (s : State) (x : BitVec 24), decode s.cfg (.txn (0x80#8 ++ x ++ 1#8)) = .ok .enc ∧
    (∀ f, Codec.encode s.cfg s.blk.opc s.blk.typ s.blk.mot (s.blk.vhi ++ s.blk.vlo).toInt s.blk.adr = .ok f →
      exec .enc s = .next { s with
        blk := { s.blk with
          txb := f, csum := Codec.byteAt f s.cfg.payloadLen, st := { s.blk.st with txv := true, err := 0 } }
        response := none }) ∧
    ((s.blk.vhi ++ s.blk.vlo).toInt < Codec.valueMin ∨ Codec.valueMax < (s.blk.vhi ++ s.blk.vlo).toInt →
      exec .enc s = .next { s with
        blk := { s.blk with st := { s.blk.st with err := 1, se := true, txv := false } }, response := none })

/-- R101: DEC, the write of 0x02 to CMD, in its three endings, as the whole next state; and it succeeds exactly when Decode of the
received input (R14, with any bytes for those lost past F) returns a payload, which then is PAY. -/
def Obligations.DecValidatesAndLatches : Prop :=
  ∀ (s : State) (x : BitVec 24), decode s.cfg (.txn (0x80#8 ++ x ++ 2#8)) = .ok .dec ∧
    (s.blk.rxn.toNat ≠ s.cfg.frameLen →
      exec .dec s = .next { s with
        blk := { s.blk with st := { s.blk.st with err := 2, sl := true, rxv := false, am := false } }, response := none }) ∧
    (s.blk.rxn.toNat = s.cfg.frameLen →
      Codec.checksum (s.blk.rxb.take s.cfg.payloadLen) ≠ Codec.byteAt s.blk.rxb s.cfg.payloadLen →
      exec .dec s = .next { s with
        blk := { s.blk with
          csum := Codec.checksum (s.blk.rxb.take s.cfg.payloadLen)
          st := { s.blk.st with err := 3, sc := true, rxv := false, am := false } }
        response := none }) ∧
    (s.blk.rxn.toNat = s.cfg.frameLen →
      Codec.checksum (s.blk.rxb.take s.cfg.payloadLen) = Codec.byteAt s.blk.rxb s.cfg.payloadLen →
      exec .dec s = .next { s with
        blk := { s.blk with
          csum := Codec.checksum (s.blk.rxb.take s.cfg.payloadLen)
          pay := s.blk.rxb.take s.cfg.payloadLen
          st := { s.blk.st with err := 0, rxv := true, am := Codec.byteAt s.blk.rxb 1 = s.blk.adr } }
        response := none }) ∧
    (∀ (lost : List Byte) (t : State), s.blk.rxb.length = s.cfg.frameLen →
      s.blk.rxn.toNat - s.cfg.frameLen ≤ lost.length → exec .dec s = .next t →
      (t.blk.st.rxv = true ↔ ∃ p, Codec.decode s.cfg (s.received lost) = .ok p) ∧
      ∀ p, Codec.decode s.cfg (s.received lost) = .ok p → t.blk.pay = p)

/-- R84: VFY, the write of 0x03 to CMD, in its three endings, as the whole next state; a second VFY gives the same outcome, and a
DEC after it the same verdict. -/
def Obligations.VfyValidatesOnly : Prop :=
  ∀ (s : State) (x : BitVec 24), decode s.cfg (.txn (0x80#8 ++ x ++ 3#8)) = .ok .vfy ∧
    (∃ v d, exec .vfy s = .next v ∧ exec .vfy v = .next v ∧ exec .dec v = .next d ∧ d.blk.st.err = v.blk.st.err) ∧
    (s.blk.rxn.toNat ≠ s.cfg.frameLen →
      exec .vfy s = .next { s with blk := { s.blk with st := { s.blk.st with err := 2, sl := true } }, response := none }) ∧
    (s.blk.rxn.toNat = s.cfg.frameLen →
      Codec.checksum (s.blk.rxb.take s.cfg.payloadLen) ≠ Codec.byteAt s.blk.rxb s.cfg.payloadLen →
      exec .vfy s = .next { s with
        blk := { s.blk with
          csum := Codec.checksum (s.blk.rxb.take s.cfg.payloadLen), st := { s.blk.st with err := 3, sc := true } }
        response := none }) ∧
    (s.blk.rxn.toNat = s.cfg.frameLen →
      Codec.checksum (s.blk.rxb.take s.cfg.payloadLen) = Codec.byteAt s.blk.rxb s.cfg.payloadLen →
      exec .vfy s = .next { s with
        blk := { s.blk with
          csum := Codec.checksum (s.blk.rxb.take s.cfg.payloadLen), st := { s.blk.st with err := 0 } }
        response := none })

/-- DEC computes Decode of the received input of R14, and VFY Validate of it, whatever the bytes past F were: the same verdict,
and on success PAY is the returned payload (R101, R14). -/
def Obligations.DecAndVfyJudgeTheReceivedInput : Prop :=
  ∀ (s : State) (lost : List Byte), s.blk.rxb.length = s.cfg.frameLen →
    s.blk.rxn.toNat - s.cfg.frameLen ≤ lost.length →
    ∃ t u, exec .dec s = .next t ∧ exec .vfy s = .next u ∧
      (∀ p, Codec.decode s.cfg (s.received lost) = .ok p → t.blk.st.err = 0 ∧ t.blk.st.rxv = true ∧ t.blk.pay = p) ∧
      (∀ e, Codec.decode s.cfg (s.received lost) = .error e →
        t.blk.st.err = errorCode e ∧ t.blk.st.rxv = false ∧ t.blk.st.am = false ∧ t.blk.pay = s.blk.pay) ∧
      (∀ k, Codec.validate s.cfg (s.received lost) = .ok k → u.blk.st.err = 0 ∧ u.blk.csum = k) ∧
      (∀ e, Codec.validate s.cfg (s.received lost) = .error e → u.blk.st.err = errorCode e)

/-- For every byte sequence of any length: emptying the buffer, pushing the sequence and running DEC gives Decode's verdict on
that sequence (R74, R101, R107 (c), (g); D8: "for every input length the verdict equals Decode's"). -/
def Obligations.ReceivingASequenceDecodesIt : Prop :=
  ∀ (s : State) (bytes : List Byte), s.cfg.Admissible → s.blk.rxb.length = s.cfg.frameLen →
    ∃ t, execList (.rxc :: bytes.map .push ++ [.dec]) s = .next t ∧
      (∀ p, Codec.decode s.cfg bytes = .ok p →
        t.blk.st.err = 0 ∧ t.blk.st.rxv = true ∧ t.blk.pay = p ∧ t.blk.rxb = bytes ∧
        t.blk.csum = Codec.checksum p ∧ (t.blk.st.am = true ↔ Codec.byteAt p 1 = s.blk.adr)) ∧
      (∀ e, Codec.decode s.cfg bytes = .error e →
        t.blk.st.err = errorCode e ∧ t.blk.st.rxv = false ∧ t.blk.st.am = false ∧ t.blk.pay = s.blk.pay)

/-- R104: ReplyValid is Decode's success with the target as the echoed address; after the input has been pushed and DEC has run, the reply is valid for the target ADR exactly when RXV = 1 and
AM = 1; an address mismatch alone is no error: ERR is 0, PAY is written and every sticky flag is left. -/
def Obligations.ReplyValidIsRxvAndAm : Prop :=
  (∀ (c : Config) (b : List Byte) (target : Byte), Codec.replyValid c b target = true ↔
    ∃ p, Codec.decode c b = .ok p ∧ (Codec.replyView p).address = target) ∧
  ∀ (s : State) (bytes : List Byte), s.cfg.Admissible → s.blk.rxb.length = s.cfg.frameLen →
    ∃ t, execList (.rxc :: bytes.map .push ++ [.dec]) s = .next t ∧
      (Codec.replyValid s.cfg bytes s.blk.adr = true ↔ (t.blk.st.rxv = true ∧ t.blk.st.am = true)) ∧
      (t.blk.st.rxv = true → t.blk.st.err = 0 ∧ Codec.decode s.cfg bytes = .ok t.blk.pay ∧ t.blk.st.se = s.blk.st.se ∧ t.blk.st.sl = s.blk.st.sl ∧
        t.blk.st.sc = s.blk.st.sc ∧ t.blk.st.si = s.blk.st.si ∧
        (t.blk.st.am = true ↔ Codec.byteAt t.blk.pay 1 = s.blk.adr))

/-- R105 in the block: after a successful ENC, RXC, pushing TXB in order and DEC, the decoded fields are the operands (derived by
the spec from R90, R100, R102). -/
def Obligations.BlockRoundTrip : Prop :=
  ∀ s : State, s.cfg.Admissible → s.blk.rxb.length = s.cfg.frameLen →
    Codec.valueMin ≤ (s.blk.vhi ++ s.blk.vlo).toInt → (s.blk.vhi ++ s.blk.vlo).toInt ≤ Codec.valueMax →
    ∃ e t, exec .enc s = .next e ∧
      execList (.rxc :: e.blk.txb.map .push ++ [.dec]) e = .next t ∧
      t.blk.st.rxv = true ∧ t.blk.st.err = 0 ∧
      Codec.byteAt t.blk.pay 0 = s.blk.opc ∧ Codec.byteAt t.blk.pay 1 = s.blk.typ ∧ Codec.byteAt t.blk.pay 2 = s.blk.mot ∧
      t.blk.dval.toInt = (s.blk.vhi ++ s.blk.vlo).toInt ∧ Codec.byteAt t.blk.pay 7 = s.blk.adr ∧
      t.blk.pay.drop 8 = List.replicate (s.cfg.payloadLen - 8) 0 ∧ t.blk.csum = Codec.byteAt e.blk.txb s.cfg.payloadLen

/-- VFY then DEC on the same buffer give the same verdict and checksum; VFY and DEC can be repeated with the same outcome
(corner cases of R84 and R107 (a)). -/
def Obligations.VfyAndDecAgreeAndRepeat : Prop :=
  ∀ s : State, ∃ v d, exec .vfy s = .next v ∧ exec .dec v = .next d ∧
    d.blk.st.err = v.blk.st.err ∧ d.blk.csum = v.blk.csum ∧ exec .vfy v = .next v ∧ exec .dec d = .next d

/-- R27: the outcome of ENC depends on OPC, TYP, MOT, VIN and ADR alone; that of DEC and VFY on RXB and RXN alone, and AM on
ADR beside them. -/
def Obligations.OutcomesDependOnTheirInputsOnly : Prop :=
  ∀ s s' e e' d d' v v' : State, s.cfg = s'.cfg →
    exec .enc s = .next e → exec .enc s' = .next e' → exec .dec s = .next d → exec .dec s' = .next d' →
    exec .vfy s = .next v → exec .vfy s' = .next v' →
    (s.blk.opc = s'.blk.opc → s.blk.typ = s'.blk.typ → s.blk.mot = s'.blk.mot → s.blk.adr = s'.blk.adr →
      s.blk.vlo = s'.blk.vlo → s.blk.vhi = s'.blk.vhi →
      e.blk.st.txv = e'.blk.st.txv ∧ e.blk.st.err = e'.blk.st.err ∧
      (e.blk.st.txv = true → e.blk.txb = e'.blk.txb ∧ e.blk.csum = e'.blk.csum)) ∧
    (s.blk.rxb = s'.blk.rxb → s.blk.rxn = s'.blk.rxn →
      d.blk.st.rxv = d'.blk.st.rxv ∧ d.blk.st.err = d'.blk.st.err ∧ v.blk.st.err = v'.blk.st.err ∧
      (d.blk.st.rxv = true → d.blk.pay = d'.blk.pay) ∧
      (s.blk.rxn.toNat = s.cfg.frameLen → d.blk.csum = d'.blk.csum ∧ v.blk.csum = v'.blk.csum) ∧
      (s.blk.adr = s'.blk.adr → d.blk.st.am = d'.blk.st.am))

/-! ### The wire frames (the composite meaning is the model's choice, log entry 6) -/

/-- FRAME.CMD is the sequence R74 writes for the document's `encode(frame)`: `ldf`, with VHI the sign of the value, then
`enc`. -/
def Obligations.FrameCmdIsLoadThenEncode : Prop :=
  ∀ (s : State) (o t m : Byte) (v : Word) (a : Byte),
    exec (.frameCmd o t m v a) s =
      execList [.wrOpc o, .wrTyp t, .wrMot m, .wrVlo v, .wrVhi (if v.msb then 0xFFFFFFFF else 0), .wrAdr a, .enc] s

/-- For this hardware's P, FRAME.CMD completes with its own ten wire bytes (R60: the bits of its word) in TXB, its fields in the
operand registers, the checksum byte in CSUM, TXV = 1 and ERR = 0; everything else is unchanged. -/
def Obligations.FrameCmdPutsItsWordInTheTransmitBuffer : Prop :=
  ∀ (s : State) (o t m : Byte) (v : Word) (a : Byte), s.cfg = Config.hardware →
    ∃ w : FrameWord, encode (.frameCmd o t m v a) = .command w ∧
      exec (.frameCmd o t m v a) s = .next { s with
        blk := { s.blk with
          opc := o, typ := t, mot := m, adr := a, vlo := v, vhi := (v.signExtend 64).extractLsb' 32 32
          txb := wireBytes w, csum := w.extractLsb' 0 8, st := { s.blk.st with txv := true, err := 0 } }
        response := none }

/-- FRAME.REPLY is the sequence R74 writes for the document's `decode(bytes)`: `rxc`, the ten bytes pushed in wire order
(R61), `dec`; for every P. -/
def Obligations.FrameReplyIsReceiveThenDecode : Prop :=
  ∀ (s : State) (st a : Byte) (v : Word) (x0 x1 x2 k : Byte),
    exec (.frameReply st a v x0 x1 x2 k) s =
      execList [.rxc, .push st, .push a, .push (v.extractLsb' 24 8), .push (v.extractLsb' 16 8), .push (v.extractLsb' 8 8),
        .push (v.extractLsb' 0 8), .push x0, .push x1, .push x2, .push k, .dec] s

/-- For this hardware's P, FRAME.REPLY completes: a frame with the right checksum is shown by the Reply view of R103 and AM
compares its echoed address with ADR; one with a wrong checksum byte is a ChecksumError and leaves PAY. -/
def Obligations.FrameReplyIsValidatedAndShown : Prop :=
  ∀ (s : State) (st a : Byte) (v : Word) (x0 x1 x2 k : Byte), s.cfg = Config.hardware → s.blk.rxb.length = 10 →
    ∃ t, exec (.frameReply st a v x0 x1 x2 k) s = .next t ∧
      t.blk.rxn = 10 ∧ t.blk.rxb = wireBytes (st ++ a ++ v ++ x0 ++ x1 ++ x2 ++ k) ∧
      t.blk.csum = Codec.checksum (t.blk.rxb.take 9) ∧
      (k = Codec.checksum (t.blk.rxb.take 9) →
        Codec.replyView t.blk.pay = ⟨st, a, v.toInt, [x0, x1, x2]⟩ ∧ t.blk.rval = v ∧
        t.blk.st = { s.blk.st with err := 0, rxv := true, am := a = s.blk.adr }) ∧
      (k ≠ Codec.checksum (t.blk.rxb.take 9) →
        t.blk.pay = s.blk.pay ∧ t.blk.st = { s.blk.st with err := 3, sc := true, rxv := false, am := false }) ∧
      t.blk.opc = s.blk.opc ∧ t.blk.typ = s.blk.typ ∧ t.blk.mot = s.blk.mot ∧ t.blk.adr = s.blk.adr ∧
      t.blk.vlo = s.blk.vlo ∧ t.blk.vhi = s.blk.vhi ∧ t.blk.txb = s.blk.txb

/-! ### Who writes what: rules over all instructions -/

/-- Frame of the operand registers (R11, R12): only the host's operand writes (and FRAME.CMD, which is such writes: log
entry 6) change one, each its own. -/
def Obligations.OnlyTheHostWritesOperands : Prop :=
  ∀ (i : Instr) (s t : State), exec i s = .next t → (∀ o ty m v a, i ≠ .frameCmd o ty m v a) →
    (t.blk.opc = s.blk.opc ∨ i = .wrOpc t.blk.opc) ∧ (t.blk.typ = s.blk.typ ∨ i = .wrTyp t.blk.typ) ∧
    (t.blk.mot = s.blk.mot ∨ i = .wrMot t.blk.mot) ∧ (t.blk.adr = s.blk.adr ∨ i = .wrAdr t.blk.adr) ∧
    (t.blk.vlo = s.blk.vlo ∨ i = .wrVlo t.blk.vlo) ∧ (t.blk.vhi = s.blk.vhi ∨ i = .wrVhi t.blk.vhi)

/-- Frame of TXB and TXV (R13, R18): TXB changes only in an ENC that succeeds, which leaves TXV = 1; TXV is cleared only by an
ENC that raised EncodeError (or an ENC inside FRAME.CMD, which cannot fail). -/
def Obligations.TransmitBufferIsWrittenBySuccessfulEncOnly : Prop :=
  ∀ (i : Instr) (s t : State), exec i s = .next t →
    (t.blk.txb ≠ s.blk.txb →
      (i = .enc ∨ ∃ o ty m v a, i = .frameCmd o ty m v a) ∧ t.blk.st.txv = true ∧ t.blk.st.err = 0) ∧
    (t.blk.st.txv ≠ s.blk.st.txv →
      (i = .enc ∨ ∃ o ty m v a, i = .frameCmd o ty m v a) ∧ (t.blk.st.txv = false → i = .enc ∧ t.blk.st.err = 1))

/-- Frame of RXB and RXN (R14): only a push writes RXB, and at most the cell RXN; only a push and RXC write RXN (FRAME.REPLY is
such pushes: log entry 6). -/
def Obligations.ReceiveBufferIsWrittenByPushOnly : Prop :=
  ∀ (i : Instr) (s t : State), exec i s = .next t → (∀ st a v x0 x1 x2 k, i ≠ .frameReply st a v x0 x1 x2 k) →
    (t.blk.rxb ≠ s.blk.rxb → ∃ b, i = .push b ∧ s.blk.rxn.toNat < s.cfg.frameLen) ∧
    (∀ n, n ≠ s.blk.rxn.toNat → t.blk.rxb[n]? = s.blk.rxb[n]?) ∧
    (t.blk.rxn ≠ s.blk.rxn → (∃ b, i = .push b) ∨ i = .rxc)

/-- Frame of PAY, RXV and AM (R15, R19, R20): only DEC writes them (FRAME.REPLY ends in one: log entry 6); PAY changes only
when RXV ends 1, and a failed DEC leaves RXV = AM = 0. -/
def Obligations.PayloadIsWrittenByAcceptingDecOnly : Prop :=
  ∀ (i : Instr) (s t : State), exec i s = .next t →
    (t.blk.pay ≠ s.blk.pay → t.blk.st.rxv = true ∧ t.blk.st.err = 0) ∧
    (t.blk.pay ≠ s.blk.pay ∨ t.blk.st.rxv ≠ s.blk.st.rxv ∨ t.blk.st.am ≠ s.blk.st.am →
      i = .dec ∨ ∃ st a v x0 x1 x2 k, i = .frameReply st a v x0 x1 x2 k) ∧
    ((i = .dec ∨ ∃ st a v x0 x1 x2 k, i = .frameReply st a v x0 x1 x2 k) → t.blk.st.err ≠ 0 →
      t.blk.st.rxv = false ∧ t.blk.st.am = false ∧ t.blk.pay = s.blk.pay)

/-- R16: CSUM changes only in a successful ENC or in a DEC or VFY that passed the length check; an ENC that raises
EncodeError and a DEC or VFY that raises FrameLengthError leave it. The frames' composites (log entry 6) are of those kinds. -/
def Obligations.ChecksumRegisterHoldsTheLastComputed : Prop :=
  (∀ (i : Instr) (s t : State), exec i s = .next t → t.blk.csum ≠ s.blk.csum →
    i = .enc ∨ i = .dec ∨ i = .vfy ∨ (∃ o ty m v a, i = .frameCmd o ty m v a) ∨
      ∃ st a v x0 x1 x2 k, i = .frameReply st a v x0 x1 x2 k) ∧
  (∀ s t : State, exec .enc s = .next t →
    (t.blk.st.err = 0 → t.blk.csum = Codec.byteAt t.blk.txb s.cfg.payloadLen) ∧
    (t.blk.st.err ≠ 0 → t.blk.csum = s.blk.csum)) ∧
  (∀ (i : Instr) (s t : State), i = .dec ∨ i = .vfy → exec i s = .next t →
    (s.blk.rxn.toNat = s.cfg.frameLen → t.blk.csum = Codec.checksum (s.blk.rxb.take s.cfg.payloadLen)) ∧
    (s.blk.rxn.toNat ≠ s.cfg.frameLen → t.blk.csum = s.blk.csum))

/-- R21: ST.ERR is written by every ENC, DEC, VFY and illegal command, to 0 or the code of the error it can raise (R135), by CLE
to 0, and left by NOP, RXC, pushes and register accesses. -/
def Obligations.ErrorCodeIsOfTheLastOperation : Prop :=
  ∀ (i : Instr) (s t : State), exec i s = .next t →
    (i = .enc → t.blk.st.err = 0 ∨ t.blk.st.err = 1) ∧
    (i = .dec ∨ i = .vfy → t.blk.st.err = 0 ∨ t.blk.st.err = 2 ∨ t.blk.st.err = 3) ∧
    ((∃ code, i = .illegal code) → t.blk.st.err = 4) ∧
    (i = .cle → t.blk.st.err = 0) ∧
    (i = .nop ∨ i = .rxc ∨ (∃ b, i = .push b) ∨ (∃ b, i = .wrOpc b) ∨ (∃ b, i = .wrTyp b) ∨ (∃ b, i = .wrMot b) ∨
      (∃ b, i = .wrAdr b) ∨ (∃ d, i = .wrVlo d) ∨ (∃ d, i = .wrVhi d) ∨ (∃ r, i = .wrRo r) ∨ (∃ r, i = .rd r) →
      t.blk.st = s.blk.st)

/-- R22: a sticky flag is set exactly when the error of its name is raised and is cleared only by CLE or reset: one instruction
other than CLE keeps every set flag, and sets a new one only together with its code in ERR; an operation that ends with a
code in ERR has that error's flag set; CLE and reset clear all four. -/
def Obligations.StickyFlagsPersistUntilCle : Prop :=
  (∀ s : State, ∃ t, exec .cle s = .next t ∧ t.NoError) ∧
  (∀ (s : State) (rest : List HostEvent), s.input = .reset :: rest → ∃ t, step s = .next t ∧ t.NoError) ∧
  ∀ (i : Instr) (s t : State), exec i s = .next t → i ≠ .cle →
    t.blk.st.se = (s.blk.st.se || (t.blk.st.se && t.blk.st.err == 1)) ∧
    t.blk.st.sl = (s.blk.st.sl || (t.blk.st.sl && t.blk.st.err == 2)) ∧
    t.blk.st.sc = (s.blk.st.sc || (t.blk.st.sc && t.blk.st.err == 3)) ∧
    t.blk.st.si = (s.blk.st.si || (t.blk.st.si && t.blk.st.err == 4)) ∧
    (i = .enc ∨ i = .dec ∨ i = .vfy ∨ (∃ code, i = .illegal code) →
      (t.blk.st.err = 1 → t.blk.st.se = true) ∧ (t.blk.st.err = 2 → t.blk.st.sl = true) ∧
      (t.blk.st.err = 3 → t.blk.st.sc = true) ∧ (t.blk.st.err = 4 → t.blk.st.si = true))

/-- A run without errors (R138): a sequence of instructions without CLE that ends with all four sticky flags 0 began with them 0 and
left ERR at 0 if it was 0; so a run without CLE that ends without a sticky flag raised no error. -/
def Obligations.NoErrorRunsRaiseNothing : Prop :=
  ∀ (is : List Instr) (s t : State), .cle ∉ is → execList is s = .next t → t.NoError →
    s.NoError ∧ (s.blk.st.err = 0 → t.blk.st.err = 0)

/-! ### Reset, the step, the invariant -/

/-- R29: every stored bit is 0 after reset. -/
def Obligations.ResetIsAllZero : Prop :=
  State.reset.blk =
    { opc := 0, typ := 0, mot := 0, adr := 0, vlo := 0, vhi := 0, rxn := 0, csum := 0
      st := ⟨false, false, false, 0, false, false, false, false⟩
      txb := List.replicate 10 0, rxb := List.replicate 10 0, pay := List.replicate 9 0 } ∧
  State.reset.blk.st.word = 0 ∧ State.reset.blk.dval = 0 ∧ State.reset.blk.rval = 0 ∧
  exec (.rd .cmd) State.reset = .next { State.reset with response := some 0 } ∧
  exec (.rd .rxd) State.reset = .next { State.reset with response := some 0 }

/-- Reset is one step between transactions, and nothing of the block survives it (R150), for every P. -/
def Obligations.ResetStepLeavesOneState : Prop :=
  ∀ (s : State) (rest : List HostEvent), s.input = .reset :: rest →
    step s = .next
      { cfg := s.cfg, input := rest, response := none
        blk :=
          { opc := 0, typ := 0, mot := 0, adr := 0, vlo := 0, vhi := 0, rxn := 0, csum := 0
            st := ⟨false, false, false, 0, false, false, false, false⟩
            txb := List.replicate s.cfg.frameLen 0, rxb := List.replicate s.cfg.frameLen 0
            pay := List.replicate s.cfg.payloadLen 0 } }

/-- R151 (derived by the spec from R29): after reset a read of any mapped index returns 0, ENC encodes the all-zero frame, and
DEC and VFY raise FrameLengthError; for every admissible P. -/
def Obligations.ResetStateHasDefinedReadings : Prop :=
  ∀ c : Config, c.Admissible →
    (∀ r : Reg, r.wf c = true →
      exec (.rd r) (State.resetFor c) = .next { State.resetFor c with response := some 0 }) ∧
    (∃ t, exec .enc (State.resetFor c) = .next t ∧ t.blk.txb = List.replicate c.frameLen 0 ∧ t.blk.csum = 0 ∧
      t.blk.st.word = 0x0001) ∧
    (∃ t, exec .dec (State.resetFor c) = .next t ∧ t.blk.st.word = 0x0220) ∧
    (∃ t, exec .vfy (State.resetFor c) = .next t ∧ t.blk.st.word = 0x0220)

/-- A step runs the decoded instruction: with a word at the head of the host's program, step is exec of the instruction the
word decodes to, on the machine with that word taken off. -/
def Obligations.StepRunsTheDecodedInstruction : Prop :=
  ∀ (s : State) (h : HostWord) (rest : List HostEvent) (i : Instr),
    s.input = .word h :: rest → decode s.cfg h = .ok i → i.wf s.cfg = true →
    step s = exec i { s with input := rest }

/-- R47, R48: every step that goes on takes exactly the next event off the host's program and leaves the configuration; with no
event left nothing changes at all (R142). -/
def Obligations.StepTakesOneEventInOrder : Prop :=
  ∀ s t : State, step s = .next t →
    t.cfg = s.cfg ∧ t.input = s.input.tail ∧ (s.input = [] → t = s)

/-- In a legal state a mapped transaction or a received frame never stops the machine: step answers a next state (every
transaction is allowed at all times, R141). -/
def Obligations.MappedTransactionsAlwaysComplete : Prop :=
  ∀ (s : State) (h : HostWord) (rest : List HostEvent), s.Inv → s.input = .word h :: rest →
    (∀ w, h = .txn w → Mapped s.cfg (w.extractLsb' 32 7).toNat) →
    (∀ w, h = .command w → ∃ i, decode s.cfg h = .ok i) →
    ∃ t, step s = .next t

/-- The invariant of a legal state holds after reset, for every admissible P. -/
def Obligations.InvariantHoldsAtReset : Prop :=
  ∀ c : Config, c.Admissible → (State.resetFor c).Inv

/-- Every step keeps the invariant: buffer sizes, ERR codes 0 to 4 beside their sticky flags, AM only with RXV, and TXV = 1 only
over a frame that Encode gives. -/
def Obligations.StepKeepsInvariant : Prop :=
  ∀ s t : State, s.Inv → step s = .next t → t.Inv
end

