-- ==== Sys2Proof/Laws/Codec.lean ====
section
/-! SUPPORT. What the pure functions of the codec do, one lemma each: later proofs cite these instead of unfolding. -/

namespace Sys2Proof.Codec

/-! ### The checksum is additive -/

@[simp] theorem checksum_nil : checksum [] = 0 := rfl

theorem checksum_cons (x : Byte) (b : List Byte) : checksum (x :: b) = x + checksum b := by
  apply BitVec.eq_of_toNat_eq
  simp [checksum, BitVec.toNat_ofNat, BitVec.toNat_add, Nat.add_mod]

theorem checksum_append (a b : List Byte) : checksum (a ++ b) = checksum a + checksum b := by
  induction a with
  | nil => simp
  | cons x a ih => simp [checksum_cons, ih, BitVec.add_assoc]

theorem checksum_replicate_zero (n : Nat) : checksum (List.replicate n 0) = 0 := by
  induction n with
  | zero => rfl
  | succ n ih => rw [List.replicate_succ, checksum_cons, ih]; rfl

/-- Replacing one byte moves the checksum by the difference of the two bytes. -/
theorem checksum_set (b : List Byte) (i : Nat) (x : Byte) (h : i < b.length) :
    checksum (b.set i x) = checksum b - byteAt b i + x := by
  induction b generalizing i with
  | nil => simp at h
  | cons y b ih =>
    cases i with
    | zero => simp [checksum_cons, byteAt]; ring
    | succ i =>
      have := ih i (by simpa using h)
      simp only [List.set_cons_succ, checksum_cons, this, byteAt, List.getD_cons_succ]
      ring

/-! ### Validate and Decode, case by case -/

theorem validate_length {c : Config} {b : List Byte} (h : b.length ≠ c.frameLen) :
    validate c b = .error .frameLengthError := by
  simp [validate, h]

theorem decode_length {c : Config} {b : List Byte} (h : b.length ≠ c.frameLen) :
    decode c b = .error .frameLengthError := by
  simp [decode, h]

/-- When Validate accepts, the length is F and the given byte is both the computed and the trailing checksum. -/
theorem validate_ok_iff {c : Config} {b : List Byte} {k : Byte} :
    validate c b = .ok k ↔
      b.length = c.frameLen ∧ checksum (b.take c.payloadLen) = k ∧ byteAt b c.payloadLen = k := by
  unfold validate
  split
  · simp_all
  · split
    · simp_all
      rintro rfl
      simp_all [eq_comm]
    · simp_all [eq_comm]

theorem decode_ok_iff {c : Config} {b p : List Byte} :
    decode c b = .ok p ↔
      b.length = c.frameLen ∧ checksum (b.take c.payloadLen) = byteAt b c.payloadLen ∧ b.take c.payloadLen = p := by
  unfold decode
  split
  · simp_all
  · split <;> simp_all

theorem decode_checksum_iff {c : Config} {b : List Byte} :
    decode c b = .error .checksumError ↔
      b.length = c.frameLen ∧ checksum (b.take c.payloadLen) ≠ byteAt b c.payloadLen := by
  unfold decode
  split
  · simp_all
  · split <;> simp_all

theorem validate_checksum_iff {c : Config} {b : List Byte} :
    validate c b = .error .checksumError ↔
      b.length = c.frameLen ∧ checksum (b.take c.payloadLen) ≠ byteAt b c.payloadLen := by
  unfold validate
  split
  · simp_all
  · split <;> simp_all

/-- A sequence of length F is its first P bytes and the byte after them. -/
theorem eq_take_append_byteAt {c : Config} {b : List Byte} (h : b.length = c.frameLen) :
    b = b.take c.payloadLen ++ [byteAt b c.payloadLen] := by
  have hlt : c.payloadLen < b.length := by simp [h, Config.frameLen]
  have : b.drop c.payloadLen = [byteAt b c.payloadLen] := by
    rw [List.drop_eq_getElem_cons hlt, List.drop_eq_nil_of_le (by simp [h, Config.frameLen])]
    simp [byteAt, List.getD_eq_getElem?_getD, hlt]
  rw [← this, List.take_append_drop]

/-! ### Encode -/

theorem payload_length (c : Config) (o t m : Byte) (w : Word) (a : Byte) (h : 8 ≤ c.payloadLen) :
    (payload c o t m w a).length = c.payloadLen := by
  simp [payload, valueBytes]
  omega

/-- When Encode succeeds, the value is in range and the frame is the payload and its checksum. -/
theorem encode_ok_iff {c : Config} {o t m : Byte} {v : Int} {a : Byte} {f : List Byte} :
    encode c o t m v a = .ok f ↔
      valueMin ≤ v ∧ v ≤ valueMax ∧
      f = payload c o t m (BitVec.ofInt 32 v) a ++ [checksum (payload c o t m (BitVec.ofInt 32 v) a)] := by
  unfold encode
  split
  · rename_i h
    simp only [reduceCtorEq, false_iff]
    rintro ⟨h1, h2, -⟩
    omega
  · rename_i h
    rw [not_or, Int.not_lt, Int.not_lt] at h
    simp [h, eq_comm]

theorem encode_error_iff {c : Config} {o t m : Byte} {v : Int} {a : Byte} {e : ErrorKind} :
    encode c o t m v a = .error e ↔ e = .encodeError ∧ (v < valueMin ∨ valueMax < v) := by
  unfold encode
  split <;> simp_all [eq_comm]

/-- Every byte of the payload is a field, a byte of the value, or reserved. -/
theorem payload_eq (c : Config) (o t m : Byte) (w : Word) (a : Byte) :
    payload c o t m w a =
      o :: t :: m :: w.extractLsb' 24 8 :: w.extractLsb' 16 8 :: w.extractLsb' 8 8 :: w.extractLsb' 0 8 :: a ::
        List.replicate (c.payloadLen - 8) 0 := rfl

/-- The four bytes of a pattern, put together again, are the pattern. -/
theorem wordOf_valueBytes (w : Word) :
    wordOf (w.extractLsb' 24 8) (w.extractLsb' 16 8) (w.extractLsb' 8 8) (w.extractLsb' 0 8) = w := by
  apply BitVec.eq_of_getLsbD_eq
  intro i hi
  simp only [wordOf, BitVec.getLsbD_append, BitVec.getLsbD_extractLsb']
  by_cases h1 : i < 8
  · simp [h1]
  by_cases h2 : i < 16
  · have : i - 8 < 8 := by omega
    simp [h1, this, show 8 + (i - 8) = i by omega]
  by_cases h3 : i < 24
  · have a1 : ¬ i - 8 < 8 := by omega
    have a2 : i - 8 - 8 < 8 := by omega
    simp [h1, a1, a2, show 16 + (i - 8 - 8) = i by omega]
  · have a1 : ¬ i - 8 < 8 := by omega
    have a2 : ¬ i - 8 - 8 < 8 := by omega
    have a3 : i - 8 - 8 - 8 < 8 := by omega
    simp [h1, a1, a2, a3, show 24 + (i - 8 - 8 - 8) = i by omega]

/-- In range, the two's complement pattern reads back as the value. -/
theorem toInt_ofInt_of_range {v : Int} (h1 : valueMin ≤ v) (h2 : v ≤ valueMax) : (BitVec.ofInt 32 v).toInt = v := by
  simp only [valueMin, valueMax] at h1 h2
  rw [BitVec.toInt_ofInt]
  apply Int.bmod_eq_of_le <;> omega

end Sys2Proof.Codec
end

