-- ==== Sys2Proof/Laws/Decode.lean ====
section
/-! SUPPORT. The fields of host words, and the index map. -/

namespace Sys2Proof

/-! ### Taking appended bit strings apart -/

theorem extract_low {m n : Nat} (a : BitVec m) (b : BitVec n) : (a ++ b).extractLsb' 0 n = b := by
  apply BitVec.eq_of_getLsbD_eq
  intro i hi
  simp [BitVec.getLsbD_append, hi]

theorem extract_skip {m n : Nat} (a : BitVec m) (b : BitVec n) (i w : Nat) :
    (a ++ b).extractLsb' (n + i) w = a.extractLsb' i w := by
  apply BitVec.eq_of_getLsbD_eq
  intro j hj
  simp [BitVec.getLsbD_append, hj, show ¬ n + i + j < n by omega,
    show n + i + j - n = i + j by omega]

theorem extract_within {m n : Nat} (a : BitVec m) (b : BitVec n) (i w : Nat) (h : i + w ≤ n) :
    (a ++ b).extractLsb' i w = b.extractLsb' i w := by
  apply BitVec.eq_of_getLsbD_eq
  intro j hj
  simp [BitVec.getLsbD_append, hj, show i + j < n by omega]

theorem extract_all {n : Nat} (a : BitVec n) : a.extractLsb' 0 n = a := by
  apply BitVec.eq_of_getLsbD_eq
  intro i hi
  simp [hi]

/-! ### Transaction words -/

theorem txnIndex_append (a : BitVec 1) (idx : BitVec 7) (d : Word) : txnIndex (a ++ idx ++ d) = idx := by
  show (a ++ idx ++ d).extractLsb' (32 + 0) 7 = idx
  rw [extract_skip, extract_low]

theorem txnData_append (h : BitVec 8) (d : Word) : txnData (h ++ d) = d := extract_low h d

theorem txnWrite_append (a : BitVec 1) (idx : BitVec 7) (d : Word) : txnWrite (a ++ idx ++ d) = a.getLsbD 0 := by
  rw [txnWrite, BitVec.getLsbD_append, BitVec.getLsbD_append]
  rfl

/-- The byte rows of R71: a first byte 0x80 + IDX, 24 ignored bits, a data byte. -/
theorem txnIndex_byteWord (h : Byte) (x : BitVec 24) (b : Byte) : txnIndex (h ++ x ++ b) = h.extractLsb' 0 7 := by
  show (h ++ x ++ b).extractLsb' (8 + (24 + 0)) 7 = _
  rw [extract_skip, extract_skip]

theorem txnWrite_byteWord (h : Byte) (x : BitVec 24) (b : Byte) : txnWrite (h ++ x ++ b) = h.getLsbD 7 := by
  rw [txnWrite, BitVec.getLsbD_append, BitVec.getLsbD_append]
  rfl

theorem dataByte_byteWord (h : Byte) (x : BitVec 24) (b : Byte) : dataByte (txnData (h ++ x ++ b)) = b := by
  have : dataByte (txnData (h ++ x ++ b)) = (h ++ x ++ b).extractLsb' 0 8 := by
    apply BitVec.eq_of_getLsbD_eq
    intro i hi
    simp [dataByte, txnData]
  rw [this, extract_low]

/-- A code that is none of R70's six is illegal and well-formed as such. -/
theorem commandAt_illegal {code : Byte} (h : 6 ≤ code.toNat) : commandAt code = .illegal code := by
  unfold commandAt
  split <;> first | omega | rfl

theorem commandAt_wf (c : Config) (code : Byte) : (commandAt code).wf c = true := by
  by_cases h : 6 ≤ code.toNat
  · rw [commandAt_illegal h]
    simpa [Instr.wf] using h
  · have : code = BitVec.ofNat 8 code.toNat := by simp
    generalize code.toNat = n at *
    subst this
    interval_cases n <;> rfl

/-! ### The index map (R40) -/

/-- The cells of the three buffers: past 0x0C the map is the three ranges. -/
theorem regAt_past_registers (c : Config) (idx : BitVec 7) (h : 0x0C < idx.toNat) :
    regAt c idx =
      if 0x10 ≤ idx.toNat ∧ idx.toNat < 0x10 + c.frameLen then some (.ro (.txb (BitVec.ofNat 4 (idx.toNat - 0x10))))
      else if 0x20 ≤ idx.toNat ∧ idx.toNat < 0x20 + c.frameLen then some (.ro (.rxb (BitVec.ofNat 4 (idx.toNat - 0x20))))
      else if 0x30 ≤ idx.toNat ∧ idx.toNat < 0x30 + c.payloadLen then some (.ro (.pay (BitVec.ofNat 4 (idx.toNat - 0x30))))
      else none := by
  unfold regAt
  split <;> first | omega | rfl

theorem blockIndex_toNat (k : BitVec 3) (i : BitVec 4) : (k ++ i : BitVec 7).toNat = k.toNat * 16 + i.toNat := by
  rw [BitVec.toNat_append, Nat.shiftLeft_eq, ← Nat.shiftLeft_eq, ← Nat.shiftLeft_add_eq_or_of_lt i.isLt, Nat.shiftLeft_eq]

theorem ofNat_cell (i : BitVec 4) (n : Nat) : BitVec.ofNat 4 (n + i.toNat - n) = i := by
  rw [Nat.add_sub_cancel_left, BitVec.ofNat_toNat]
  simp

/-- Every register of the map is found at its index. -/
theorem regAt_index (c : Config) (hc : c.Admissible) (r : Reg) (hr : r.wf c = true) : regAt c r.index = some r := by
  obtain ⟨h8, h15⟩ := hc
  cases r with
  | cmd => rfl
  | rxd => rfl
  | rw r => cases r <;> rfl
  | ro r =>
    cases r with
    | txb i =>
      have hi : i.toNat < c.frameLen := by simpa [Reg.wf, ROReg.wf] using hr
      have hn : (Reg.ro (.txb i)).index.toNat = 16 + i.toNat := blockIndex_toNat 1#3 i
      rw [regAt_past_registers c _ (by omega), hn, if_pos (by omega), ofNat_cell]
    | rxb i =>
      have hi : i.toNat < c.frameLen := by simpa [Reg.wf, ROReg.wf] using hr
      have hn : (Reg.ro (.rxb i)).index.toNat = 32 + i.toNat := blockIndex_toNat 2#3 i
      rw [regAt_past_registers c _ (by omega), hn, if_neg (by simp only [Config.frameLen]; omega), if_pos (by omega), ofNat_cell]
    | pay i =>
      have hi : i.toNat < c.payloadLen := by simpa [Reg.wf, ROReg.wf] using hr
      have hn : (Reg.ro (.pay i)).index.toNat = 48 + i.toNat := blockIndex_toNat 3#3 i
      rw [regAt_past_registers c _ (by omega), hn, if_neg (by simp only [Config.frameLen]; omega),
        if_neg (by simp only [Config.frameLen]; omega), if_pos (by omega), ofNat_cell]
    | _ => rfl

/-- What the map finds at an index is that index's register, and it is well-formed. -/
theorem regAt_some {c : Config} (hc : c.Admissible) {idx : BitVec 7} {r : Reg} (h : regAt c idx = some r) :
    r.index = idx ∧ r.wf c = true := by
  obtain ⟨h8, h15⟩ := hc
  have hlt := idx.isLt
  by_cases hp : 0x0C < idx.toNat
  · rw [regAt_past_registers c idx hp] at h
    split at h
    · obtain rfl := Option.some.inj h
      refine ⟨BitVec.eq_of_toNat_eq ?_, ?_⟩
      · show (1#3 ++ _ : BitVec 7).toNat = _
        rw [blockIndex_toNat, BitVec.toNat_ofNat]; simp only [Config.frameLen] at *; simp; omega
      · simp only [Reg.wf, ROReg.wf, BitVec.toNat_ofNat, decide_eq_true_eq]; simp only [Config.frameLen] at *; omega
    · split at h
      · obtain rfl := Option.some.inj h
        refine ⟨BitVec.eq_of_toNat_eq ?_, ?_⟩
        · show (2#3 ++ _ : BitVec 7).toNat = _
          rw [blockIndex_toNat, BitVec.toNat_ofNat]; simp only [Config.frameLen] at *; simp; omega
        · simp only [Reg.wf, ROReg.wf, BitVec.toNat_ofNat, decide_eq_true_eq]; simp only [Config.frameLen] at *; omega
      · split at h
        · obtain rfl := Option.some.inj h
          refine ⟨BitVec.eq_of_toNat_eq ?_, ?_⟩
          · show (3#3 ++ _ : BitVec 7).toNat = _
            rw [blockIndex_toNat, BitVec.toNat_ofNat]; simp; omega
          · simp only [Reg.wf, ROReg.wf, BitVec.toNat_ofNat, decide_eq_true_eq]; omega
        · cases h
  · have : idx = BitVec.ofNat 7 idx.toNat := by simp
    generalize idx.toNat = n at *
    subst this
    interval_cases n <;> (obtain rfl := Option.some.inj h; exact ⟨rfl, rfl⟩)

/-- The map finds a register exactly at the mapped indices. -/
theorem regAt_isSome_iff (c : Config) (idx : BitVec 7) :
    (∃ r, regAt c idx = some r) ↔ Machine.Mapped c idx.toNat := by
  have hlt := idx.isLt
  by_cases hp : 0x0C < idx.toNat
  · rw [regAt_past_registers c idx hp]
    unfold Machine.Mapped
    split
    · simp; omega
    · split
      · simp; omega
      · split
        · simp; omega
        · simp; omega
  · have : idx = BitVec.ofNat 7 idx.toNat := by simp
    refine iff_of_true ?_ (.inl (by omega))
    generalize idx.toNat = n at *
    subst this
    interval_cases n <;> exact ⟨_, rfl⟩

end Sys2Proof
end

