-- ==== Sys2Proof/Laws/State.lean ====
section
/-! SUPPORT. One lemma per field per update of the state's records, true by unfolding the update once. -/

namespace Sys2Proof.Machine

@[simp] theorem State.commit_cfg (s : State) (b : Block) : (s.commit b).cfg = s.cfg := rfl
@[simp] theorem State.commit_blk (s : State) (b : Block) : (s.commit b).blk = b := rfl
@[simp] theorem State.commit_input (s : State) (b : Block) : (s.commit b).input = s.input := rfl
@[simp] theorem State.commit_response (s : State) (b : Block) : (s.commit b).response = none := rfl

@[simp] theorem State.answer_cfg (s : State) (v : Word) : (s.answer v).cfg = s.cfg := rfl
@[simp] theorem State.answer_blk (s : State) (v : Word) : (s.answer v).blk = s.blk := rfl
@[simp] theorem State.answer_input (s : State) (v : Word) : (s.answer v).input = s.input := rfl
@[simp] theorem State.answer_response (s : State) (v : Word) : (s.answer v).response = some v := rfl

@[simp] theorem State.applyReset_cfg (s : State) : s.applyReset.cfg = s.cfg := rfl
@[simp] theorem State.applyReset_blk (s : State) : s.applyReset.blk = Block.reset s.cfg := rfl
@[simp] theorem State.applyReset_input (s : State) : s.applyReset.input = s.input := rfl
@[simp] theorem State.applyReset_response (s : State) : s.applyReset.response = none := rfl

@[simp] theorem Status.succeed_txv (t : Status) : t.succeed.txv = t.txv := rfl
@[simp] theorem Status.succeed_rxv (t : Status) : t.succeed.rxv = t.rxv := rfl
@[simp] theorem Status.succeed_am (t : Status) : t.succeed.am = t.am := rfl
@[simp] theorem Status.succeed_err (t : Status) : t.succeed.err = 0 := rfl
@[simp] theorem Status.succeed_se (t : Status) : t.succeed.se = t.se := rfl
@[simp] theorem Status.succeed_sl (t : Status) : t.succeed.sl = t.sl := rfl
@[simp] theorem Status.succeed_sc (t : Status) : t.succeed.sc = t.sc := rfl
@[simp] theorem Status.succeed_si (t : Status) : t.succeed.si = t.si := rfl

@[simp] theorem Status.clear_txv (t : Status) : t.clear.txv = t.txv := rfl
@[simp] theorem Status.clear_rxv (t : Status) : t.clear.rxv = t.rxv := rfl
@[simp] theorem Status.clear_am (t : Status) : t.clear.am = t.am := rfl
@[simp] theorem Status.clear_err (t : Status) : t.clear.err = 0 := rfl
@[simp] theorem Status.clear_se (t : Status) : t.clear.se = false := rfl
@[simp] theorem Status.clear_sl (t : Status) : t.clear.sl = false := rfl
@[simp] theorem Status.clear_sc (t : Status) : t.clear.sc = false := rfl
@[simp] theorem Status.clear_si (t : Status) : t.clear.si = false := rfl

@[simp] theorem Status.fail_encodeError_txv (t : Status) : (t.fail .encodeError).txv = t.txv := rfl
@[simp] theorem Status.fail_encodeError_rxv (t : Status) : (t.fail .encodeError).rxv = t.rxv := rfl
@[simp] theorem Status.fail_encodeError_am (t : Status) : (t.fail .encodeError).am = t.am := rfl
@[simp] theorem Status.fail_encodeError_err (t : Status) : (t.fail .encodeError).err = errorCode .encodeError := rfl
@[simp] theorem Status.fail_encodeError_se (t : Status) : (t.fail .encodeError).se = true := rfl
@[simp] theorem Status.fail_encodeError_sl (t : Status) : (t.fail .encodeError).sl = t.sl := rfl
@[simp] theorem Status.fail_encodeError_sc (t : Status) : (t.fail .encodeError).sc = t.sc := rfl
@[simp] theorem Status.fail_encodeError_si (t : Status) : (t.fail .encodeError).si = t.si := rfl

@[simp] theorem Status.fail_frameLengthError_txv (t : Status) : (t.fail .frameLengthError).txv = t.txv := rfl
@[simp] theorem Status.fail_frameLengthError_rxv (t : Status) : (t.fail .frameLengthError).rxv = t.rxv := rfl
@[simp] theorem Status.fail_frameLengthError_am (t : Status) : (t.fail .frameLengthError).am = t.am := rfl
@[simp] theorem Status.fail_frameLengthError_err (t : Status) :
    (t.fail .frameLengthError).err = errorCode .frameLengthError := rfl
@[simp] theorem Status.fail_frameLengthError_se (t : Status) : (t.fail .frameLengthError).se = t.se := rfl
@[simp] theorem Status.fail_frameLengthError_sl (t : Status) : (t.fail .frameLengthError).sl = true := rfl
@[simp] theorem Status.fail_frameLengthError_sc (t : Status) : (t.fail .frameLengthError).sc = t.sc := rfl
@[simp] theorem Status.fail_frameLengthError_si (t : Status) : (t.fail .frameLengthError).si = t.si := rfl

@[simp] theorem Status.fail_checksumError_txv (t : Status) : (t.fail .checksumError).txv = t.txv := rfl
@[simp] theorem Status.fail_checksumError_rxv (t : Status) : (t.fail .checksumError).rxv = t.rxv := rfl
@[simp] theorem Status.fail_checksumError_am (t : Status) : (t.fail .checksumError).am = t.am := rfl
@[simp] theorem Status.fail_checksumError_err (t : Status) :
    (t.fail .checksumError).err = errorCode .checksumError := rfl
@[simp] theorem Status.fail_checksumError_se (t : Status) : (t.fail .checksumError).se = t.se := rfl
@[simp] theorem Status.fail_checksumError_sl (t : Status) : (t.fail .checksumError).sl = t.sl := rfl
@[simp] theorem Status.fail_checksumError_sc (t : Status) : (t.fail .checksumError).sc = true := rfl
@[simp] theorem Status.fail_checksumError_si (t : Status) : (t.fail .checksumError).si = t.si := rfl

@[simp] theorem Status.fail_illegalCommand_txv (t : Status) : (t.fail .illegalCommand).txv = t.txv := rfl
@[simp] theorem Status.fail_illegalCommand_rxv (t : Status) : (t.fail .illegalCommand).rxv = t.rxv := rfl
@[simp] theorem Status.fail_illegalCommand_am (t : Status) : (t.fail .illegalCommand).am = t.am := rfl
@[simp] theorem Status.fail_illegalCommand_err (t : Status) :
    (t.fail .illegalCommand).err = errorCode .illegalCommand := rfl
@[simp] theorem Status.fail_illegalCommand_se (t : Status) : (t.fail .illegalCommand).se = t.se := rfl
@[simp] theorem Status.fail_illegalCommand_sl (t : Status) : (t.fail .illegalCommand).sl = t.sl := rfl
@[simp] theorem Status.fail_illegalCommand_sc (t : Status) : (t.fail .illegalCommand).sc = t.sc := rfl
@[simp] theorem Status.fail_illegalCommand_si (t : Status) : (t.fail .illegalCommand).si = true := rfl

@[simp] theorem Block.write_opc_opc (b : Block) (d : Word) : (b.write .opc d).opc = d.extractLsb' 0 8 := rfl
@[simp] theorem Block.write_opc_typ (b : Block) (d : Word) : (b.write .opc d).typ = b.typ := rfl
@[simp] theorem Block.write_opc_mot (b : Block) (d : Word) : (b.write .opc d).mot = b.mot := rfl
@[simp] theorem Block.write_opc_adr (b : Block) (d : Word) : (b.write .opc d).adr = b.adr := rfl
@[simp] theorem Block.write_opc_vlo (b : Block) (d : Word) : (b.write .opc d).vlo = b.vlo := rfl
@[simp] theorem Block.write_opc_vhi (b : Block) (d : Word) : (b.write .opc d).vhi = b.vhi := rfl
@[simp] theorem Block.write_opc_rxn (b : Block) (d : Word) : (b.write .opc d).rxn = b.rxn := rfl
@[simp] theorem Block.write_opc_csum (b : Block) (d : Word) : (b.write .opc d).csum = b.csum := rfl
@[simp] theorem Block.write_opc_st (b : Block) (d : Word) : (b.write .opc d).st = b.st := rfl
@[simp] theorem Block.write_opc_txb (b : Block) (d : Word) : (b.write .opc d).txb = b.txb := rfl
@[simp] theorem Block.write_opc_rxb (b : Block) (d : Word) : (b.write .opc d).rxb = b.rxb := rfl
@[simp] theorem Block.write_opc_pay (b : Block) (d : Word) : (b.write .opc d).pay = b.pay := rfl

@[simp] theorem Block.write_typ_opc (b : Block) (d : Word) : (b.write .typ d).opc = b.opc := rfl
@[simp] theorem Block.write_typ_typ (b : Block) (d : Word) : (b.write .typ d).typ = d.extractLsb' 0 8 := rfl
@[simp] theorem Block.write_typ_mot (b : Block) (d : Word) : (b.write .typ d).mot = b.mot := rfl
@[simp] theorem Block.write_typ_adr (b : Block) (d : Word) : (b.write .typ d).adr = b.adr := rfl
@[simp] theorem Block.write_typ_vlo (b : Block) (d : Word) : (b.write .typ d).vlo = b.vlo := rfl
@[simp] theorem Block.write_typ_vhi (b : Block) (d : Word) : (b.write .typ d).vhi = b.vhi := rfl
@[simp] theorem Block.write_typ_rxn (b : Block) (d : Word) : (b.write .typ d).rxn = b.rxn := rfl
@[simp] theorem Block.write_typ_csum (b : Block) (d : Word) : (b.write .typ d).csum = b.csum := rfl
@[simp] theorem Block.write_typ_st (b : Block) (d : Word) : (b.write .typ d).st = b.st := rfl
@[simp] theorem Block.write_typ_txb (b : Block) (d : Word) : (b.write .typ d).txb = b.txb := rfl
@[simp] theorem Block.write_typ_rxb (b : Block) (d : Word) : (b.write .typ d).rxb = b.rxb := rfl
@[simp] theorem Block.write_typ_pay (b : Block) (d : Word) : (b.write .typ d).pay = b.pay := rfl

@[simp] theorem Block.write_mot_opc (b : Block) (d : Word) : (b.write .mot d).opc = b.opc := rfl
@[simp] theorem Block.write_mot_typ (b : Block) (d : Word) : (b.write .mot d).typ = b.typ := rfl
@[simp] theorem Block.write_mot_mot (b : Block) (d : Word) : (b.write .mot d).mot = d.extractLsb' 0 8 := rfl
@[simp] theorem Block.write_mot_adr (b : Block) (d : Word) : (b.write .mot d).adr = b.adr := rfl
@[simp] theorem Block.write_mot_vlo (b : Block) (d : Word) : (b.write .mot d).vlo = b.vlo := rfl
@[simp] theorem Block.write_mot_vhi (b : Block) (d : Word) : (b.write .mot d).vhi = b.vhi := rfl
@[simp] theorem Block.write_mot_rxn (b : Block) (d : Word) : (b.write .mot d).rxn = b.rxn := rfl
@[simp] theorem Block.write_mot_csum (b : Block) (d : Word) : (b.write .mot d).csum = b.csum := rfl
@[simp] theorem Block.write_mot_st (b : Block) (d : Word) : (b.write .mot d).st = b.st := rfl
@[simp] theorem Block.write_mot_txb (b : Block) (d : Word) : (b.write .mot d).txb = b.txb := rfl
@[simp] theorem Block.write_mot_rxb (b : Block) (d : Word) : (b.write .mot d).rxb = b.rxb := rfl
@[simp] theorem Block.write_mot_pay (b : Block) (d : Word) : (b.write .mot d).pay = b.pay := rfl

@[simp] theorem Block.write_adr_opc (b : Block) (d : Word) : (b.write .adr d).opc = b.opc := rfl
@[simp] theorem Block.write_adr_typ (b : Block) (d : Word) : (b.write .adr d).typ = b.typ := rfl
@[simp] theorem Block.write_adr_mot (b : Block) (d : Word) : (b.write .adr d).mot = b.mot := rfl
@[simp] theorem Block.write_adr_adr (b : Block) (d : Word) : (b.write .adr d).adr = d.extractLsb' 0 8 := rfl
@[simp] theorem Block.write_adr_vlo (b : Block) (d : Word) : (b.write .adr d).vlo = b.vlo := rfl
@[simp] theorem Block.write_adr_vhi (b : Block) (d : Word) : (b.write .adr d).vhi = b.vhi := rfl
@[simp] theorem Block.write_adr_rxn (b : Block) (d : Word) : (b.write .adr d).rxn = b.rxn := rfl
@[simp] theorem Block.write_adr_csum (b : Block) (d : Word) : (b.write .adr d).csum = b.csum := rfl
@[simp] theorem Block.write_adr_st (b : Block) (d : Word) : (b.write .adr d).st = b.st := rfl
@[simp] theorem Block.write_adr_txb (b : Block) (d : Word) : (b.write .adr d).txb = b.txb := rfl
@[simp] theorem Block.write_adr_rxb (b : Block) (d : Word) : (b.write .adr d).rxb = b.rxb := rfl
@[simp] theorem Block.write_adr_pay (b : Block) (d : Word) : (b.write .adr d).pay = b.pay := rfl

@[simp] theorem Block.write_vlo_opc (b : Block) (d : Word) : (b.write .vlo d).opc = b.opc := rfl
@[simp] theorem Block.write_vlo_typ (b : Block) (d : Word) : (b.write .vlo d).typ = b.typ := rfl
@[simp] theorem Block.write_vlo_mot (b : Block) (d : Word) : (b.write .vlo d).mot = b.mot := rfl
@[simp] theorem Block.write_vlo_adr (b : Block) (d : Word) : (b.write .vlo d).adr = b.adr := rfl
@[simp] theorem Block.write_vlo_vlo (b : Block) (d : Word) : (b.write .vlo d).vlo = d := rfl
@[simp] theorem Block.write_vlo_vhi (b : Block) (d : Word) : (b.write .vlo d).vhi = b.vhi := rfl
@[simp] theorem Block.write_vlo_rxn (b : Block) (d : Word) : (b.write .vlo d).rxn = b.rxn := rfl
@[simp] theorem Block.write_vlo_csum (b : Block) (d : Word) : (b.write .vlo d).csum = b.csum := rfl
@[simp] theorem Block.write_vlo_st (b : Block) (d : Word) : (b.write .vlo d).st = b.st := rfl
@[simp] theorem Block.write_vlo_txb (b : Block) (d : Word) : (b.write .vlo d).txb = b.txb := rfl
@[simp] theorem Block.write_vlo_rxb (b : Block) (d : Word) : (b.write .vlo d).rxb = b.rxb := rfl
@[simp] theorem Block.write_vlo_pay (b : Block) (d : Word) : (b.write .vlo d).pay = b.pay := rfl

@[simp] theorem Block.write_vhi_opc (b : Block) (d : Word) : (b.write .vhi d).opc = b.opc := rfl
@[simp] theorem Block.write_vhi_typ (b : Block) (d : Word) : (b.write .vhi d).typ = b.typ := rfl
@[simp] theorem Block.write_vhi_mot (b : Block) (d : Word) : (b.write .vhi d).mot = b.mot := rfl
@[simp] theorem Block.write_vhi_adr (b : Block) (d : Word) : (b.write .vhi d).adr = b.adr := rfl
@[simp] theorem Block.write_vhi_vlo (b : Block) (d : Word) : (b.write .vhi d).vlo = b.vlo := rfl
@[simp] theorem Block.write_vhi_vhi (b : Block) (d : Word) : (b.write .vhi d).vhi = d := rfl
@[simp] theorem Block.write_vhi_rxn (b : Block) (d : Word) : (b.write .vhi d).rxn = b.rxn := rfl
@[simp] theorem Block.write_vhi_csum (b : Block) (d : Word) : (b.write .vhi d).csum = b.csum := rfl
@[simp] theorem Block.write_vhi_st (b : Block) (d : Word) : (b.write .vhi d).st = b.st := rfl
@[simp] theorem Block.write_vhi_txb (b : Block) (d : Word) : (b.write .vhi d).txb = b.txb := rfl
@[simp] theorem Block.write_vhi_rxb (b : Block) (d : Word) : (b.write .vhi d).rxb = b.rxb := rfl
@[simp] theorem Block.write_vhi_pay (b : Block) (d : Word) : (b.write .vhi d).pay = b.pay := rfl

@[simp] theorem Block.push_opc (c : Config) (b : Block) (d : Byte) : (b.push c d).opc = b.opc := rfl
@[simp] theorem Block.push_typ (c : Config) (b : Block) (d : Byte) : (b.push c d).typ = b.typ := rfl
@[simp] theorem Block.push_mot (c : Config) (b : Block) (d : Byte) : (b.push c d).mot = b.mot := rfl
@[simp] theorem Block.push_adr (c : Config) (b : Block) (d : Byte) : (b.push c d).adr = b.adr := rfl
@[simp] theorem Block.push_vlo (c : Config) (b : Block) (d : Byte) : (b.push c d).vlo = b.vlo := rfl
@[simp] theorem Block.push_vhi (c : Config) (b : Block) (d : Byte) : (b.push c d).vhi = b.vhi := rfl
@[simp] theorem Block.push_rxn (c : Config) (b : Block) (d : Byte) :
    (b.push c d).rxn = (if b.rxn.toNat < 255 then b.rxn + 1 else b.rxn) := rfl
@[simp] theorem Block.push_csum (c : Config) (b : Block) (d : Byte) : (b.push c d).csum = b.csum := rfl
@[simp] theorem Block.push_st (c : Config) (b : Block) (d : Byte) : (b.push c d).st = b.st := rfl
@[simp] theorem Block.push_txb (c : Config) (b : Block) (d : Byte) : (b.push c d).txb = b.txb := rfl
@[simp] theorem Block.push_rxb (c : Config) (b : Block) (d : Byte) :
    (b.push c d).rxb = (if b.rxn.toNat < c.frameLen then b.rxb.set b.rxn.toNat d else b.rxb) := rfl
@[simp] theorem Block.push_pay (c : Config) (b : Block) (d : Byte) : (b.push c d).pay = b.pay := rfl

@[simp] theorem Block.rxc_opc (b : Block) : b.rxc.opc = b.opc := rfl
@[simp] theorem Block.rxc_typ (b : Block) : b.rxc.typ = b.typ := rfl
@[simp] theorem Block.rxc_mot (b : Block) : b.rxc.mot = b.mot := rfl
@[simp] theorem Block.rxc_adr (b : Block) : b.rxc.adr = b.adr := rfl
@[simp] theorem Block.rxc_vlo (b : Block) : b.rxc.vlo = b.vlo := rfl
@[simp] theorem Block.rxc_vhi (b : Block) : b.rxc.vhi = b.vhi := rfl
@[simp] theorem Block.rxc_rxn (b : Block) : b.rxc.rxn = 0 := rfl
@[simp] theorem Block.rxc_csum (b : Block) : b.rxc.csum = b.csum := rfl
@[simp] theorem Block.rxc_st (b : Block) : b.rxc.st = b.st := rfl
@[simp] theorem Block.rxc_txb (b : Block) : b.rxc.txb = b.txb := rfl
@[simp] theorem Block.rxc_rxb (b : Block) : b.rxc.rxb = b.rxb := rfl
@[simp] theorem Block.rxc_pay (b : Block) : b.rxc.pay = b.pay := rfl

@[simp] theorem Block.cle_opc (b : Block) : b.cle.opc = b.opc := rfl
@[simp] theorem Block.cle_typ (b : Block) : b.cle.typ = b.typ := rfl
@[simp] theorem Block.cle_mot (b : Block) : b.cle.mot = b.mot := rfl
@[simp] theorem Block.cle_adr (b : Block) : b.cle.adr = b.adr := rfl
@[simp] theorem Block.cle_vlo (b : Block) : b.cle.vlo = b.vlo := rfl
@[simp] theorem Block.cle_vhi (b : Block) : b.cle.vhi = b.vhi := rfl
@[simp] theorem Block.cle_rxn (b : Block) : b.cle.rxn = b.rxn := rfl
@[simp] theorem Block.cle_csum (b : Block) : b.cle.csum = b.csum := rfl
@[simp] theorem Block.cle_st (b : Block) : b.cle.st = b.st.clear := rfl
@[simp] theorem Block.cle_txb (b : Block) : b.cle.txb = b.txb := rfl
@[simp] theorem Block.cle_rxb (b : Block) : b.cle.rxb = b.rxb := rfl
@[simp] theorem Block.cle_pay (b : Block) : b.cle.pay = b.pay := rfl

@[simp] theorem Block.reset_opc (c : Config) : (Block.reset c).opc = 0 := rfl
@[simp] theorem Block.reset_typ (c : Config) : (Block.reset c).typ = 0 := rfl
@[simp] theorem Block.reset_mot (c : Config) : (Block.reset c).mot = 0 := rfl
@[simp] theorem Block.reset_adr (c : Config) : (Block.reset c).adr = 0 := rfl
@[simp] theorem Block.reset_vlo (c : Config) : (Block.reset c).vlo = 0 := rfl
@[simp] theorem Block.reset_vhi (c : Config) : (Block.reset c).vhi = 0 := rfl
@[simp] theorem Block.reset_rxn (c : Config) : (Block.reset c).rxn = 0 := rfl
@[simp] theorem Block.reset_csum (c : Config) : (Block.reset c).csum = 0 := rfl
@[simp] theorem Block.reset_st (c : Config) : (Block.reset c).st = Status.reset := rfl
@[simp] theorem Block.reset_txb (c : Config) : (Block.reset c).txb = List.replicate c.frameLen 0 := rfl
@[simp] theorem Block.reset_rxb (c : Config) : (Block.reset c).rxb = List.replicate c.frameLen 0 := rfl
@[simp] theorem Block.reset_pay (c : Config) : (Block.reset c).pay = List.replicate c.payloadLen 0 := rfl

end Sys2Proof.Machine
end

