-- ==== Sys2Proof/Laws/Ops.lean ====
section
/-! SUPPORT. What each shared operation of the block can do, said once. -/

namespace Sys2Proof.Machine

/-! ### Raising an error writes ST and CSUM only (R136, R137) -/

theorem Block.raise_frame (b : Block) (r : Raised) :
    (b.raise r).opc = b.opc ∧ (b.raise r).typ = b.typ ∧ (b.raise r).mot = b.mot ∧ (b.raise r).adr = b.adr ∧
    (b.raise r).vlo = b.vlo ∧ (b.raise r).vhi = b.vhi ∧ (b.raise r).rxn = b.rxn ∧ (b.raise r).txb = b.txb ∧
    (b.raise r).rxb = b.rxb ∧ (b.raise r).pay = b.pay := by
  cases r <;> simp [Block.raise]

/-! ### ENC, DEC and VFY, by their endings -/

theorem Block.enc_ok {c : Config} {b : Block} {f : List Byte} (h : Codec.encode c b.opc b.typ b.mot b.vin b.adr = .ok f) :
    b.enc c = { b with txb := f, csum := Codec.byteAt f c.payloadLen, st := { b.st with txv := true, err := 0 } } := by
  simp [Block.enc, h, Status.succeed]

theorem Block.enc_error {c : Config} {b : Block} {e : ErrorKind}
    (h : Codec.encode c b.opc b.typ b.mot b.vin b.adr = .error e) :
    b.enc c = { b with st := { b.st with err := 1, se := true, txv := false } } := by
  simp [Block.enc, h, Block.raise, Status.fail, errorCode]

/-- ENC ends in one of two ways. -/
theorem Block.enc_cases (c : Config) (b : Block) :
    (∃ f, Codec.encode c b.opc b.typ b.mot b.vin b.adr = .ok f ∧
      b.enc c = { b with txb := f, csum := Codec.byteAt f c.payloadLen, st := { b.st with txv := true, err := 0 } }) ∨
    (Codec.encode c b.opc b.typ b.mot b.vin b.adr = .error .encodeError ∧
      b.enc c = { b with st := { b.st with err := 1, se := true, txv := false } }) := by
  cases h : Codec.encode c b.opc b.typ b.mot b.vin b.adr with
  | ok f => exact .inl ⟨f, rfl, Block.enc_ok h⟩
  | error e =>
    obtain ⟨rfl, -⟩ := Codec.encode_error_iff.mp h
    exact .inr ⟨rfl, Block.enc_error h⟩

/-- DEC ends in one of three ways. -/
theorem Block.dec_cases (c : Config) (b : Block) :
    (b.rxn.toNat ≠ c.frameLen ∧
      b.dec c = { b with st := { b.st with err := 2, sl := true, rxv := false, am := false } }) ∨
    (b.rxn.toNat = c.frameLen ∧ b.computed c ≠ Codec.byteAt b.rxb c.payloadLen ∧
      b.dec c = { b with
        csum := b.computed c, st := { b.st with err := 3, sc := true, rxv := false, am := false } }) ∨
    (b.rxn.toNat = c.frameLen ∧ b.computed c = Codec.byteAt b.rxb c.payloadLen ∧
      b.dec c = { b with
        csum := b.computed c, pay := b.rxb.take c.payloadLen
        st := { b.st with err := 0, rxv := true, am := Codec.byteAt b.rxb 1 = b.adr } }) := by
  unfold Block.dec
  split
  · exact .inl ⟨‹_›, rfl⟩
  · rename_i h1
    rw [not_not] at h1
    split
    · exact .inr (.inl ⟨h1, ‹_›, rfl⟩)
    · rename_i h2
      exact .inr (.inr ⟨h1, not_not.mp h2, rfl⟩)

/-- VFY ends in one of three ways. -/
theorem Block.vfy_cases (c : Config) (b : Block) :
    (b.rxn.toNat ≠ c.frameLen ∧ b.vfy c = { b with st := { b.st with err := 2, sl := true } }) ∨
    (b.rxn.toNat = c.frameLen ∧ b.computed c ≠ Codec.byteAt b.rxb c.payloadLen ∧
      b.vfy c = { b with csum := b.computed c, st := { b.st with err := 3, sc := true } }) ∨
    (b.rxn.toNat = c.frameLen ∧ b.computed c = Codec.byteAt b.rxb c.payloadLen ∧
      b.vfy c = { b with csum := b.computed c, st := { b.st with err := 0 } }) := by
  unfold Block.vfy
  split
  · exact .inl ⟨‹_›, rfl⟩
  · rename_i h1
    rw [not_not] at h1
    split
    · exact .inr (.inl ⟨h1, ‹_›, rfl⟩)
    · rename_i h2
      exact .inr (.inr ⟨h1, not_not.mp h2, rfl⟩)

/-! ### Pushing -/

theorem Block.push_rxb_length (c : Config) (b : Block) (d : Byte) : (b.push c d).rxb.length = b.rxb.length := by
  simp only [Block.push_rxb]
  split <;> simp

theorem Block.pushAll_nil (c : Config) (b : Block) : b.pushAll c [] = b := rfl

theorem Block.pushAll_cons (c : Config) (b : Block) (d : Byte) (ds : List Byte) :
    b.pushAll c (d :: ds) = (b.push c d).pushAll c ds := rfl

/-- What n pushes do, from any count on: the count saturates, the bytes below F land in order, nothing else changes. -/
theorem Block.pushAll_eq (c : Config) (hc : c.frameLen ≤ 255) (b : Block) (ds : List Byte) (hb : b.rxb.length = c.frameLen) :
    b.pushAll c ds = { b with
      rxn := BitVec.ofNat 8 (min (b.rxn.toNat + ds.length) 255)
      rxb := b.rxb.take b.rxn.toNat ++ (ds.take (c.frameLen - b.rxn.toNat) ++ b.rxb.drop (b.rxn.toNat + ds.length)) } := by
  induction ds generalizing b with
  | nil =>
    have h1 : min b.rxn.toNat 255 = b.rxn.toNat := by have := b.rxn.isLt; omega
    simp [Block.pushAll_nil, h1]
  | cons d ds ih =>
    rw [Block.pushAll_cons, ih _ (by rw [Block.push_rxb_length, hb])]
    have hlt := b.rxn.isLt
    have hn : (b.push c d).rxn.toNat = min (b.rxn.toNat + 1) 255 := by
      simp only [Block.push_rxn]
      split
      · rw [BitVec.toNat_add]; simp; omega
      · omega
    rw [hn]
    have h1 : min (min (b.rxn.toNat + 1) 255 + ds.length) 255 = min (b.rxn.toNat + (d :: ds).length) 255 := by
      simp only [List.length_cons]; omega
    have h2 : (b.push c d).rxb.take (min (b.rxn.toNat + 1) 255) ++
        (ds.take (c.frameLen - min (b.rxn.toNat + 1) 255) ++ (b.push c d).rxb.drop (min (b.rxn.toNat + 1) 255 + ds.length)) =
        b.rxb.take b.rxn.toNat ++
          ((d :: ds).take (c.frameLen - b.rxn.toNat) ++ b.rxb.drop (b.rxn.toNat + (d :: ds).length)) := by
      simp only [Block.push_rxb]
      by_cases hr : b.rxn.toNat < c.frameLen
      · have e1 : min (b.rxn.toNat + 1) 255 = b.rxn.toNat + 1 := by omega
        have e2 : c.frameLen - b.rxn.toNat = (c.frameLen - (b.rxn.toNat + 1)) + 1 := by omega
        rw [if_pos hr, e1, e2, List.take_succ_cons, List.take_set, List.drop_set_of_lt (by omega), List.length_cons,
          show b.rxn.toNat + (ds.length + 1) = b.rxn.toNat + 1 + ds.length by omega]
        rw [List.take_succ_eq_append_getElem (by omega), List.set_append_right _ _ (by simp)]
        simp [show b.rxn.toNat - min b.rxn.toNat b.rxb.length = 0 by omega]
      · have e0 : (d :: ds).length = ds.length + 1 := rfl
        have e1 : c.frameLen - min (b.rxn.toNat + 1) 255 = 0 := by omega
        have e2 : c.frameLen - b.rxn.toNat = 0 := by omega
        have e3 : b.rxb.drop (min (b.rxn.toNat + 1) 255 + ds.length) = [] := List.drop_of_length_le (by omega)
        have e4 : b.rxb.drop (b.rxn.toNat + (d :: ds).length) = [] := List.drop_of_length_le (by omega)
        rw [if_neg hr, e1, e2, e3, e4, List.take_of_length_le (l := b.rxb) (by omega),
          List.take_of_length_le (l := b.rxb) (by omega)]
        rfl
    rw [h1, h2]
    rfl

/-- RXC and then pushes: the buffer holds exactly these bytes as far as it goes (R14). -/
theorem Block.rxc_pushAll (c : Config) (hc : c.frameLen ≤ 255) (b : Block) (ds : List Byte)
    (hb : b.rxb.length = c.frameLen) :
    b.rxc.pushAll c ds = { b with
      rxn := BitVec.ofNat 8 (min ds.length 255)
      rxb := ds.take c.frameLen ++ b.rxb.drop ds.length } := by
  rw [Block.pushAll_eq c hc _ _ (by simpa using hb)]
  simp

/-! ### What exec and step can do around the block -/

theorem State.commit_frame {s t : State} {b : Block}
    (h : (.next (s.commit b) : Host.Outcome State Fault Refusal) = .next t) : t.cfg = s.cfg ∧ t.input = s.input := by
  cases h
  exact ⟨rfl, rfl⟩

/-- No instruction writes the configuration or the host's program. -/
theorem exec_next_frame {i : Instr} {s t : State} (h : exec i s = .next t) : t.cfg = s.cfg ∧ t.input = s.input := by
  cases i with
  | wrRo r =>
    simp only [exec, execWrRo] at h
    split at h
    · exact State.commit_frame h
    · cases h
  | rd r =>
    simp only [exec, execRd] at h
    split at h
    · cases h; exact ⟨rfl, rfl⟩
    · cases h
  | _ => exact State.commit_frame h

/-- A step takes one event: none, a reset, or a word and its instruction. -/
theorem step_cases {s t : State} (h : step s = .next t) :
    (s.input = [] ∧ t = s) ∨
    (∃ rest, s.input = .reset :: rest ∧ t = ({ s with input := rest } : State).applyReset) ∨
    (∃ w rest i, s.input = .word w :: rest ∧ decode s.cfg w = .ok i ∧ exec i { s with input := rest } = .next t) := by
  obtain ⟨cfg, blk, input, response⟩ := s
  rcases input with _ | ⟨_ | w, rest⟩
  · cases h; exact .inl ⟨rfl, rfl⟩
  · cases h; exact .inr (.inl ⟨rest, rfl, rfl⟩)
  · simp only [step, State.nextEvent] at h
    split at h
    · exact .inr (.inr ⟨w, rest, _, rfl, ‹_›, h⟩)
    · cases h

/-! ### Which reads there are -/

theorem Block.readRO_isSome {c : Config} {b : Block} (h1 : b.txb.length = c.frameLen) (h2 : b.rxb.length = c.frameLen)
    (h3 : b.pay.length = c.payloadLen) {r : ROReg} (hr : r.wf c = true) : ∃ v, b.readRO r = some v := by
  cases r <;> simp_all [Block.readRO, ROReg.wf]

theorem Block.read_isSome {c : Config} {b : Block} (h1 : b.txb.length = c.frameLen) (h2 : b.rxb.length = c.frameLen)
    (h3 : b.pay.length = c.payloadLen) {r : Reg} (hr : r.wf c = true) : ∃ v, b.read r = some v := by
  cases r with
  | ro r => exact Block.readRO_isSome h1 h2 h3 hr
  | _ => exact ⟨_, rfl⟩

end Sys2Proof.Machine
end

