-- ==== Sys2Proof/Laws/Exec.lean ====
section
/-! SUPPORT. What exec can do, once per instruction (exec_cases), and what the sequences of spec/30_encoding.md R74 amount to. -/

namespace Sys2Proof.Machine

/-! ### Operands of the sequences -/

/-- A byte on the bus is kept whole by an 8-bit register (R44). -/
theorem busWord_byte (b : Byte) : (busWord b).extractLsb' 0 8 = b := by
  apply BitVec.eq_of_getLsbD_eq
  intro i hi
  simp [busWord, hi]
  omega

/-- `ldv` of a 32-bit value: its pattern in VLO, its sign in VHI. -/
theorem valueLow_toInt (v : Word) : valueLow v.toInt = v := by
  apply BitVec.eq_of_toNat_eq
  rw [valueLow, BitVec.extractLsb'_toNat, BitVec.toNat_ofInt, BitVec.toInt_eq_toNat_cond]
  have := v.isLt
  split <;> simp <;> omega

theorem valueHigh_toInt (v : Word) : valueHigh v.toInt = (v.signExtend 64).extractLsb' 32 32 := rfl

/-- VHI:VLO after `ldv v` is v (R12). -/
theorem vin_of_value (v : Word) : (valueHigh v.toInt ++ valueLow v.toInt).toInt = v.toInt := by
  have h : valueHigh v.toInt ++ valueLow v.toInt = BitVec.ofInt 64 v.toInt := by
    apply BitVec.eq_of_getLsbD_eq
    intro i hi
    simp only [valueHigh, valueLow, BitVec.getLsbD_append, BitVec.getLsbD_extractLsb']
    by_cases h : i < 32
    · simp [h]
    · simp [h, show i - 32 < 32 by omega, show 32 + (i - 32) = i by omega]
  rw [h, BitVec.toInt_ofInt]
  have h1 := BitVec.le_toInt v
  have h2 := BitVec.toInt_lt (x := v)
  apply Int.bmod_eq_of_le <;> omega

theorem Block.loadFields_eq (b : Block) (o t m : Byte) (v : Word) (a : Byte) :
    b.loadFields o t m v.toInt a =
      { b with opc := o, typ := t, mot := m, vlo := v, vhi := valueHigh v.toInt, adr := a } := by
  simp [Block.loadFields, Block.write, busWord_byte, valueLow_toInt]

/-- A 32-bit value is in Encode's range. -/
theorem encode_word (c : Config) (o t m : Byte) (v : Word) (a : Byte) :
    Codec.encode c o t m v.toInt a = .ok (Codec.payload c o t m v a ++ [Codec.checksum (Codec.payload c o t m v a)]) := by
  have h1 := BitVec.le_toInt v
  have h2 := BitVec.toInt_lt (x := v)
  rw [Codec.encode_ok_iff, BitVec.ofInt_toInt]
  exact ⟨by simp only [Codec.valueMin]; omega, by simp only [Codec.valueMax]; omega, rfl⟩

/-- `ldf` then `enc` of a 32-bit value succeeds. -/
theorem Block.sendFrame_eq (c : Config) (b : Block) (o t m : Byte) (v : Word) (a : Byte) {f : List Byte}
    (hf : Codec.encode c o t m v.toInt a = .ok f) :
    b.sendFrame c o t m v.toInt a = { b with
      opc := o, typ := t, mot := m, vlo := v, vhi := valueHigh v.toInt, adr := a
      txb := f, csum := Codec.byteAt f c.payloadLen, st := { b.st with txv := true, err := 0 } } := by
  have hv : (valueHigh v.toInt ++ v).toInt = v.toInt := by
    have := vin_of_value v
    rwa [valueLow_toInt] at this
  unfold Block.sendFrame
  rw [Block.loadFields_eq, Block.enc_ok (f := f)]
  simpa only [Block.vin, hv] using hf

/-- Pushes write RXN and RXB only, and keep RXB's size. -/
theorem Block.pushAll_frame (c : Config) (b : Block) (ds : List Byte) :
    ∃ x y, b.pushAll c ds = { b with rxn := x, rxb := y } ∧ y.length = b.rxb.length := by
  induction ds generalizing b with
  | nil => exact ⟨b.rxn, b.rxb, rfl, rfl⟩
  | cons d ds ih =>
    obtain ⟨x, y, h1, h2⟩ := ih (b.push c d)
    exact ⟨x, y, h1, h2.trans (Block.push_rxb_length c b d)⟩

/-- The pushes of a list of instructions, as one. -/
theorem execList_push (s : State) (d : Byte) (ds : List Byte) (rest : List Instr) :
    execList ((d :: ds).map .push ++ rest) s = execList rest (s.commit (s.blk.pushAll s.cfg (d :: ds))) := by
  induction ds generalizing s d with
  | nil => rfl
  | cons e ds ih =>
    show execList ((e :: ds).map .push ++ rest) (s.commit (s.blk.push s.cfg d)) = _
    rw [ih]
    rfl

/-- RXC and any number of pushes, as one (R74 `rxc`, `pushf`). -/
theorem execList_rxc_push (s : State) (ds : List Byte) (rest : List Instr) :
    execList (.rxc :: ds.map .push ++ rest) s = execList rest (s.commit (s.blk.rxc.pushAll s.cfg ds)) := by
  show execList (ds.map .push ++ rest) (s.commit s.blk.rxc) = _
  cases ds with
  | nil => rfl
  | cons d ds => rw [execList_push]; rfl

/-! ### Every instruction, by what it leaves in the block -/

/-- What instruction i can make of block b. -/
def BlockAfter (c : Config) (b : Block) (i : Instr) (b' : Block) : Prop :=
  match i with
  | .nop => b' = b
  | .enc => b' = b.enc c
  | .dec => b' = b.dec c
  | .vfy => b' = b.vfy c
  | .rxc => b' = { b with rxn := 0 }
  | .cle => b' = { b with st := b.st.clear }
  | .illegal _ => b' = { b with st := { b.st with err := 4, si := true } }
  | .push d => b' = b.push c d
  | .wrOpc d => b' = { b with opc := d }
  | .wrTyp d => b' = { b with typ := d }
  | .wrMot d => b' = { b with mot := d }
  | .wrAdr d => b' = { b with adr := d }
  | .wrVlo d => b' = { b with vlo := d }
  | .wrVhi d => b' = { b with vhi := d }
  | .wrRo _ => b' = b
  | .rd _ => b' = b
  | .frameCmd o t m v a => ∃ f, Codec.encode c o t m v.toInt a = .ok f ∧ b' = { b with
      opc := o, typ := t, mot := m, vlo := v, vhi := valueHigh v.toInt, adr := a
      txb := f, csum := Codec.byteAt f c.payloadLen, st := { b.st with txv := true, err := 0 } }
  | .frameReply _ _ _ _ _ _ _ => ∃ x y, y.length = b.rxb.length ∧ b' = ({ b with rxn := x, rxb := y } : Block).dec c

/-- The inversion lemma of exec: proofs about all instructions take its cases instead of unfolding exec. -/
theorem exec_cases {i : Instr} {s t : State} (h : exec i s = .next t) : BlockAfter s.cfg s.blk i t.blk := by
  cases i with
  | wrRo r =>
    simp only [exec, execWrRo] at h
    split at h
    · cases h; rfl
    · cases h
  | rd r =>
    simp only [exec, execRd] at h
    split at h
    · cases h; rfl
    · cases h
  | frameCmd o ty m v a =>
    have h' := Host.Outcome.next.inj h
    rw [Block.sendFrame_eq _ _ _ _ _ _ _ (encode_word s.cfg o ty m v a)] at h'
    exact ⟨_, encode_word s.cfg o ty m v a, by rw [← h']; rfl⟩
  | frameReply st a v x0 x1 x2 k =>
    have h' := Host.Outcome.next.inj h
    obtain ⟨x, y, h1, h2⟩ := Block.pushAll_frame s.cfg s.blk.rxc (replyBytes st a v x0 x1 x2 k)
    unfold Block.receive at h'
    rw [h1] at h'
    exact ⟨x, y, h2, by rw [← h']; rfl⟩
  | wrOpc d => rw [← Host.Outcome.next.inj h]; simp [BlockAfter, Block.write, busWord_byte]
  | wrTyp d => rw [← Host.Outcome.next.inj h]; simp [BlockAfter, Block.write, busWord_byte]
  | wrMot d => rw [← Host.Outcome.next.inj h]; simp [BlockAfter, Block.write, busWord_byte]
  | wrAdr d => rw [← Host.Outcome.next.inj h]; simp [BlockAfter, Block.write, busWord_byte]
  | illegal code =>
    rw [← Host.Outcome.next.inj h]; simp [BlockAfter, Block.raise, Status.fail, errorCode]
  | _ => rw [← Host.Outcome.next.inj h]; simp [BlockAfter, Block.write, Block.rxc, Block.cle]

/-- Every well-formed instruction completes when the buffers have their sizes. -/
theorem exec_completes {i : Instr} {s : State} (h1 : s.blk.txb.length = s.cfg.frameLen)
    (h2 : s.blk.rxb.length = s.cfg.frameLen) (h3 : s.blk.pay.length = s.cfg.payloadLen) (hw : i.wf s.cfg = true) :
    ∃ t, exec i s = .next t := by
  cases i with
  | wrRo r =>
    obtain ⟨v, hv⟩ := Block.readRO_isSome h1 h2 h3 hw
    exact ⟨_, by simp only [exec, execWrRo, hv]; rfl⟩
  | rd r =>
    obtain ⟨v, hv⟩ := Block.read_isSome h1 h2 h3 hw
    exact ⟨_, by simp only [exec, execRd, hv]; rfl⟩
  | _ => exact ⟨_, rfl⟩

end Sys2Proof.Machine
end

