-- ==== Sys2Proof/Laws/PerInstr.lean ====
section
/-!
SUPPORT. Facts about every instruction as syntax, one lemma per constructor.
RowPattern: the word of a well-formed instruction has the bits that its own row of spec/opcode_table.json fixes.
-/

namespace Sys2Proof.Laws

/-- A bit string laid over another with a mask: the masked bits of the two parts. -/
theorem and_append {m n : Nat} (a a' : BitVec m) (b b' : BitVec n) : (a ++ b) &&& (a' ++ b') = (a &&& a') ++ (b &&& b') := by
  apply BitVec.eq_of_getLsbD_eq
  intro i _
  simp only [BitVec.getLsbD_and, BitVec.getLsbD_append]
  split <;> rfl

/-- A row whose mask covers W, IDX: what the written word keeps under it. -/
theorem writeWord_row (idx : BitVec 7) (d : Word) :
    (1#1 ++ idx ++ d : TxnWord) &&& (0xFF#8 ++ 0#32) = (1#1 ++ idx) ++ 0#32 := by
  rw [and_append, show (0xFF#8 : BitVec 8) = BitVec.allOnes 8 from rfl, BitVec.and_allOnes, BitVec.and_zero]

theorem rowW (w : BitVec 1) (idx : BitVec 7) (d : Word) :
    (w ++ idx ++ d : TxnWord) &&& (1#1 ++ 0#7 ++ 0#32) = w ++ 0#7 ++ 0#32 := by
  rw [and_append, and_append, show (1#1 : BitVec 1) = BitVec.allOnes 1 from rfl, BitVec.and_allOnes, BitVec.and_zero,
    BitVec.and_zero]

namespace RowPattern

/-- The word of i lies in i's row. -/
def Statement (i : Instr) : Prop := matchesRow i (encode i) = true

theorem nop : Statement .nop := rfl

theorem enc : Statement .enc := rfl

theorem dec : Statement .dec := rfl

theorem vfy : Statement .vfy := rfl

theorem rxc : Statement .rxc := rfl

theorem cle : Statement .cle := rfl

theorem illegal (d : Byte) : Statement (.illegal d) := decide_eq_true (writeWord_row _ _)

theorem push (d : Byte) : Statement (.push d) := decide_eq_true (writeWord_row _ _)

theorem wrOpc (d : Byte) : Statement (.wrOpc d) := decide_eq_true (writeWord_row _ _)

theorem wrTyp (d : Byte) : Statement (.wrTyp d) := decide_eq_true (writeWord_row _ _)

theorem wrMot (d : Byte) : Statement (.wrMot d) := decide_eq_true (writeWord_row _ _)

theorem wrAdr (d : Byte) : Statement (.wrAdr d) := decide_eq_true (writeWord_row _ _)

theorem wrVlo (d : Word) : Statement (.wrVlo d) := decide_eq_true (writeWord_row _ _)

theorem wrVhi (d : Word) : Statement (.wrVhi d) := decide_eq_true (writeWord_row _ _)

theorem wrRo (r : ROReg) : Statement (.wrRo r) := decide_eq_true (rowW 1#1 _ _)

theorem rd (r : Reg) : Statement (.rd r) := decide_eq_true (rowW 0#1 _ _)

theorem frameCmd (o t m : Byte) (v : Word) (a : Byte) : Statement (.frameCmd o t m v a) := by
  apply decide_eq_true
  show (o ++ t ++ m ++ v ++ a ++ 0#8 ++ _ : FrameWord) &&& (0#64 ++ 0xFF#8 ++ 0#8) = 0#64 ++ 0#8 ++ 0#8
  rw [and_append, and_append]
  simp

theorem frameReply (s a : Byte) (v : Word) (x0 x1 x2 k : Byte) : Statement (.frameReply s a v x0 x1 x2 k) := rfl

end RowPattern
end Sys2Proof.Laws
end

