-- ==== Sys2Proof/Tests/Slice0.lean ====
section
/-! SUPPORT. Small tests; expected values are the spec's own vectors (spec/95_test_vectors.md) and worked examples. -/

namespace Sys2Proof.Tests

open Sys2Proof.Machine

/-! ### WellFormed: an ill-formed term for each check -/

theorem wf_refuses_legal_code_as_illegal : (Instr.illegal 0x05).wf Config.hardware = false := by decide
theorem wf_refuses_txb_cell_past_F : (Instr.rd (.ro (.txb 10))).wf Config.hardware = false := by decide
theorem wf_refuses_rxb_cell_past_F : (Instr.wrRo (.rxb 10)).wf Config.hardware = false := by decide
theorem wf_refuses_pay_cell_past_P : (Instr.rd (.ro (.pay 9))).wf Config.hardware = false := by decide
theorem wf_accepts_last_cells :
    (Instr.rd (.ro (.txb 9))).wf Config.hardware = true ∧ (Instr.wrRo (.pay 8)).wf Config.hardware = true ∧
      (Instr.illegal 0x06).wf Config.hardware = true := by decide

/-! ### Decoding: a word of every row, written out from spec/30_encoding.md R69 to R71 as W, IDX, DATA -/

theorem test_decode_nop : decodeTableWord 40 0x8000000000 = some .nop := by decide
theorem test_decode_nop_ignored_bits : decodeTableWord 40 0x8000000100 = some .nop := by decide -- V-B14
theorem test_decode_enc : decodeTableWord 40 0x80FFFFFF01 = some .enc := by decide -- V-B13
theorem test_decode_dec : decodeTableWord 40 0x8000000002 = some .dec := by decide
theorem test_decode_vfy : decodeTableWord 40 0x8000000003 = some .vfy := by decide
theorem test_decode_rxc : decodeTableWord 40 0x8000000004 = some .rxc := by decide
theorem test_decode_cle : decodeTableWord 40 0x8000000005 = some .cle := by decide
theorem test_decode_illegal_lowest : decodeTableWord 40 0x8000000006 = some (.illegal 0x06) := by decide -- V-B12
theorem test_decode_illegal_highest : decodeTableWord 40 0x80000000FF = some (.illegal 0xFF) := by decide
theorem test_decode_push : decodeTableWord 40 0x88000001FF = some (.push 0xFF) := by decide -- V-B6
theorem test_decode_wrOpc : decodeTableWord 40 0x82000001FF = some (.wrOpc 0xFF) := by decide -- V-A1
theorem test_decode_wrTyp : decodeTableWord 40 0x8300000004 = some (.wrTyp 0x04) := by decide
theorem test_decode_wrMot : decodeTableWord 40 0x8400000000 = some (.wrMot 0x00) := by decide
theorem test_decode_wrAdr : decodeTableWord 40 0x8500000002 = some (.wrAdr 0x02) := by decide
theorem test_decode_wrVlo : decodeTableWord 40 0x86FFFFFC18 = some (.wrVlo 0xFFFFFC18) := by decide -- V-A2
theorem test_decode_wrVhi : decodeTableWord 40 0x87FFFFFFFF = some (.wrVhi 0xFFFFFFFF) := by decide
theorem test_decode_wrRo_st : decodeTableWord 40 0x810000FFFF = some (.wrRo .st) := by decide -- V-A3
theorem test_decode_wrRo_txb0 : decodeTableWord 40 0x90000000AA = some (.wrRo (.txb 0)) := by decide -- V-A4
theorem test_decode_rd_txb9 : decodeTableWord 40 0x1900000000 = some (.rd (.ro (.txb 9))) := by decide
theorem test_decode_rd_pay8 : decodeTableWord 40 0x3800000000 = some (.rd (.ro (.pay 8))) := by decide

/-- The numbers of R40: RXN, CSUM, DVAL, RVAL, RXB[0], RXB[9], PAY[0]. -/
theorem test_decode_rd_map :
    [0x0900000000, 0x0A00000000, 0x0B00000000, 0x0C00000000, 0x2000000000, 0x2900000000, 0x3000000000].map
      (decodeTableWord 40) =
      [some (.rd (.ro .rxn)), some (.rd (.ro .csum)), some (.rd (.ro .dval)), some (.rd (.ro .rval)),
        some (.rd (.ro (.rxb 0))), some (.rd (.ro (.rxb 9))), some (.rd (.ro (.pay 0)))] := by decide

/-- V-A6: 0D, 8D, 1A, 39, 40 and 7F are unmapped. -/
theorem test_decode_unmapped :
    [0x0D00000000, 0x8D00000000, 0x1A00000000, 0x3900000000, 0x4000000000, 0x7F00000000].map (decodeTableWord 40) =
      [none, none, none, none, none, none] := by decide

/-- V-E1: the frame 01 00 00 00 00 03 E8 01 00 ED is (1, 0, 0, 1000, 1). -/
theorem test_decode_frameCmd :
    decodeTableWord 80 0x010000000003E80100ED = some (.frameCmd 1 0 0 1000 1) := by decide

/-- V-D4: 64 01 FF FF FF FF 02 01 06 6A is status 100, address 1, value -1, x = 02 01 06. -/
theorem test_decode_frameReply :
    decodeTableWord 80 0x6401FFFFFFFF0201066A = some (.frameReply 100 1 0xFFFFFFFF 2 1 6 0x6A) := by decide

/-- The words of the same examples, from the encoder. -/
theorem test_encode_words :
    encode (.wrVlo 0xFFFFFC18) = .txn 0x86FFFFFC18 ∧ encode (.rd (.ro .dval)) = .txn 0x0B00000000 ∧
    encode (.push 0x64) = .txn 0x8800000064 ∧ encode (.frameCmd 1 0 0 1000 1) = .command 0x010000000003E80100ED := by decide

/-! ### The pure functions -/

/-- V-C4, V-C6, V-C7. -/
theorem test_checksum :
    Codec.checksum [0xFF, 0x01] = 0 ∧ Codec.checksum (List.replicate 9 0xFF) = 0xF7 ∧
    Codec.checksum [1, 2, 3, 4, 5, 6, 7, 8, 9] = 0x2D := by decide

/-- V-E6, V-E9. -/
theorem test_encode_frame :
    Codec.encode Config.hardware 6 1 2 (-2) 3 = .ok [6, 1, 2, 0xFF, 0xFF, 0xFF, 0xFE, 3, 0, 7] ∧
    Codec.encode Config.hardware 0xF0 0x0F 0xAA 0x01020304 0x55 = .ok [0xF0, 0x0F, 0xAA, 1, 2, 3, 4, 0x55, 0, 8] := by
  decide

/-- V-E4, V-E5, V-E13, V-E14: both ends of the range. -/
theorem test_encode_range :
    Codec.encode Config.hardware 5 4 0 (-2147483648) 1 = .ok [5, 4, 0, 0x80, 0, 0, 0, 1, 0, 0x8A] ∧
    Codec.encode Config.hardware 5 4 0 2147483647 1 = .ok [5, 4, 0, 0x7F, 0xFF, 0xFF, 0xFF, 1, 0, 0x86] ∧
    Codec.encode Config.hardware 1 0 0 2147483648 1 = .error .encodeError ∧
    Codec.encode Config.hardware 1 0 0 (-2147483649) 1 = .error .encodeError := by decide

/-- V-P6, V-P12, V-P13: P = 8. -/
theorem test_payload_8 :
    Codec.encode ⟨8⟩ 6 1 2 (-2) 3 = .ok [6, 1, 2, 0xFF, 0xFF, 0xFF, 0xFE, 3, 7] ∧
    Codec.decode ⟨8⟩ [1, 0, 0, 0, 0, 3, 0xE8, 1, 0, 0xED] = .error .frameLengthError ∧
    Codec.decode ⟨8⟩ [1, 0, 0, 0, 0, 3, 0xE9, 1, 0xED] = .error .checksumError := by decide

/-- V-S10, V-L2: the checksum byte itself, one byte short. -/
theorem test_decode_rejects :
    Codec.decode Config.hardware [1, 0, 0, 0, 0, 3, 0xE8, 1, 0, 0xEC] = .error .checksumError ∧
    Codec.decode Config.hardware [1, 0, 0, 0, 0, 3, 0xE8, 1, 0] = .error .frameLengthError := by decide

/-- V-D1, V-D4: the two views. -/
theorem test_views :
    Codec.frameView [1, 0, 0, 0, 0, 3, 0xE8, 1, 0] = ⟨1, 0, 0, 1000, 1⟩ ∧
    Codec.replyView [0x64, 1, 0xFF, 0xFF, 0xFF, 0xFF, 2, 1, 6] = ⟨100, 1, -1, [2, 1, 6]⟩ := by decide

/-! ### One instruction each, on a small state -/

/-- The block of an outcome. -/
def after (o : Host.Outcome State Fault Refusal) : Option Block :=
  match o with
  | .next t => some t.blk
  | .fault _ => none
  | .refused _ => none

/-- What an outcome returned to the host. -/
def answered (o : Host.Outcome State Fault Refusal) : Option Word :=
  match o with
  | .next t => t.response
  | .fault _ => none
  | .refused _ => none

/-- The reset state with this block. -/
def withBlock (b : Block) : State := { State.reset with blk := b }

/-- The block at reset with these received bytes, all F of them. -/
def loaded (bytes : List Byte) (adr : Byte) : Block :=
  { Block.reset Config.hardware with rxb := bytes, rxn := 10, adr := adr }

/-- A status word as a Status, to start from (R17). -/
def statusOf (w : BitVec 16) : Status :=
  ⟨w.getLsbD 0, w.getLsbD 1, w.getLsbD 2, w.extractLsb' 4 3, w.getLsbD 8, w.getLsbD 9, w.getLsbD 10, w.getLsbD 11⟩

/-- V-B15. -/
theorem test_nop :
    (after (exec .nop (withBlock { Block.reset Config.hardware with st := statusOf 0x0430 }))).map (·.st.word) =
      some 0x0430 := by decide

/-- V-B10: the valid flags and AM survive. -/
theorem test_cle :
    (after (exec .cle (withBlock { Block.reset Config.hardware with st := statusOf 0x0F47 }))).map (·.st.word) =
      some 0x0007 := by decide

/-- V-B11. -/
theorem test_illegal :
    (after (exec (.illegal 0xFF) (withBlock { Block.reset Config.hardware with st := statusOf 0x0001 }))).map (·.st.word) =
      some 0x0841 := by decide

/-- V-E20. -/
theorem test_enc :
    (after (exec .enc (withBlock { Block.reset Config.hardware with opc := 1, adr := 1, vlo := 1000 }))).map
      (fun b => (b.txb, b.csum, b.st.word)) = some ([1, 0, 0, 0, 0, 3, 0xE8, 1, 0, 0xED], 0xED, 0x0001) := by decide

/-- V-E26: a failed ENC after a successful one. -/
theorem test_enc_error :
    (after (exec .enc (withBlock
      { Block.reset Config.hardware with
        opc := 1, adr := 1, vlo := 1000, vhi := 1, csum := 0xED, st := statusOf 0x0001
        txb := [1, 0, 0, 0, 0, 3, 0xE8, 1, 0, 0xED] }))).map (fun b => (b.txb, b.csum, b.st.word)) =
      some ([1, 0, 0, 0, 0, 3, 0xE8, 1, 0, 0xED], 0xED, 0x0110) := by decide

/-- V-R1. -/
theorem test_dec :
    (after (exec .dec (withBlock (loaded [0x64, 1, 0, 0, 3, 0xE8, 0, 0, 0, 0x50] 1)))).map
      (fun b => (b.csum, b.pay, b.rval, b.dval, b.st.word)) =
      some (0x50, [0x64, 1, 0, 0, 3, 0xE8, 0, 0, 0], 0x000003E8, 0x0003E800, 0x0006) := by decide

/-- V-R6. -/
theorem test_dec_checksum_error :
    (after (exec .dec (withBlock (loaded [1, 0, 0, 0, 0, 2, 0xE8, 1, 0, 0xED] 1)))).map
      (fun b => (b.csum, b.pay, b.st.word)) = some (0xEC, List.replicate 9 0, 0x0430) := by decide

/-- V-R10: VFY on eleven bytes leaves RXV, AM, PAY and CSUM. -/
theorem test_vfy_length_error :
    (after (exec .vfy (withBlock
      { loaded [0x64, 1, 0, 0, 3, 0xE8, 0, 0, 0, 0x50] 1 with rxn := 11, csum := 0x50, st := statusOf 0x0006 }))).map
      (fun b => (b.csum, b.st.word)) = some (0x50, 0x0226) := by decide

/-- V-R9. -/
theorem test_vfy :
    (after (exec .vfy (withBlock
      { loaded [0x64, 1, 0, 0, 3, 0xE8, 0, 0, 0, 0x50] 1 with st := statusOf 0x0006 }))).map
      (fun b => (b.csum, b.st.word)) = some (0x50, 0x0006) := by decide

/-- V-B2, V-B3, V-B5: the last cell, one past it, the saturated count. -/
theorem test_push :
    ([9, 10, 255].map fun (n : Byte) =>
      (after (exec (.push 0xAB) (withBlock { Block.reset Config.hardware with rxn := n }))).map
        fun b => (b.rxb.getD 9 0, b.rxn)) =
      [some (0xAB, 10), some (0, 11), some (0, 255)] := by decide

/-- V-B7. -/
theorem test_rxc :
    (after (exec .rxc (withBlock (loaded [0x64, 1, 0, 0, 3, 0xE8, 0, 0, 0, 0x50] 1)))).map (fun b => (b.rxn, b.rxb)) =
      some (0, [0x64, 1, 0, 0, 3, 0xE8, 0, 0, 0, 0x50]) := by decide

/-- The six operand writes of program A. -/
theorem test_wr :
    (after (execList [.wrOpc 5, .wrTyp 4, .wrMot 7, .wrVlo 0xFFFFFC18, .wrVhi 0xFFFFFFFF, .wrAdr 2] State.reset)).map
      (fun b => (b.opc, b.typ, b.mot, b.vlo, b.vhi, b.adr)) = some (5, 4, 7, 0xFFFFFC18, 0xFFFFFFFF, 2) := by decide

/-- V-A4. -/
theorem test_wrRo :
    after (exec (.wrRo (.txb 0)) State.reset) = some (Block.reset Config.hardware) := by decide

/-- V-A8: DVAL and RVAL of PAY = 06 01 02 FF FF FF FE 03 00. -/
theorem test_rd_views :
    ([.ro .dval, .ro .rval, .ro (.pay 8), .cmd].map fun r =>
      answered (exec (.rd r) (withBlock
        { Block.reset Config.hardware with pay := [6, 1, 2, 0xFF, 0xFF, 0xFF, 0xFE, 3, 0] }))) =
      [some 0xFFFFFFFE, some 0x02FFFFFF, some 0, some 0] := by decide

/-- V-E11: (5, 4, 0, -1000, 2), and its operand registers as `ldf` writes them (program A). -/
theorem test_frameCmd :
    (after (exec (.frameCmd 5 4 0 0xFFFFFC18 2) State.reset)).map (fun b => (b.txb, b.vlo, b.vhi, b.st.word)) =
      some ([5, 4, 0, 0xFF, 0xFF, 0xFC, 0x18, 2, 0, 0x1D], 0xFFFFFC18, 0xFFFFFFFF, 0x0001) := by decide

/-- V-R2: the reply of V-D3 while ADR = 2: accepted, AM = 0. -/
theorem test_frameReply :
    (after (exec (.frameReply 0x64 1 1000 0 0 0 0x50) (withBlock { Block.reset Config.hardware with adr := 2 }))).map
      (fun b => (b.rxn, b.pay, b.st.word)) = some (10, [0x64, 1, 0, 0, 3, 0xE8, 0, 0, 0], 0x0002) := by decide

/-! ### Step -/

/-- A word of the table runs as the first instruction after reset: `82 00000005` (R115). -/
theorem test_step_fetches :
    (after (step (State.reset.withFetchWord 40 0x8200000005))).map (·.opc) = some 5 := by decide

/-- A reset event between transactions (R150). -/
theorem test_step_reset :
    after (step { withBlock (loaded (List.replicate 10 1) 7) with input := [.reset] }) =
      some (Block.reset Config.hardware) := by decide

/-! ### Witnesses: for each statement with hypotheses, a concrete case that meets all of them together, clause by clause -/

/-- A valid reply frame, V-D3: status 100, address 1, value 1000. -/
def replyFrame : List Byte := [0x64, 1, 0, 0, 3, 0xE8, 0, 0, 0, 0x50]

/-- The same frame received, as the target 1 expects it. -/
def received : State := withBlock (loaded replyFrame 1)

/-- The same frame with its checksum byte changed. -/
def damaged : State := withBlock (loaded [0x64, 1, 0, 0, 3, 0xE8, 0, 0, 0, 0x51] 1)

/-- The value operand 2^31, one above the range. -/
def outOfRange : State := withBlock { Block.reset Config.hardware with vlo := 0x80000000, st := statusOf 0x0001 }

/-- The transaction word of index 0x39 (read), which is unmapped, as the whole program. -/
def unmappedRead : State := { State.reset with input := [.word (.txn 0x3900000000)] }

theorem witness_DecodeOfEncodeIsIdentity :
    Config.hardware.Admissible ∧ (Instr.rd (.ro (.txb 9))).wf Config.hardware = true ∧
    Config.Admissible ⟨15⟩ ∧ (Instr.rd (.ro (.txb 15))).wf ⟨15⟩ = true := by decide

theorem witness_TransactionDecoderIsTotal :
    Config.hardware.Admissible ∧
    ([0x00, 0x0C, 0x10, 0x19, 0x20, 0x29, 0x30, 0x38].all fun n => Mapped Config.hardware n) ∧
    ([0x0D, 0x0F, 0x1A, 0x1F, 0x2A, 0x39, 0x3F, 0x40, 0x7F].all fun n => ¬ Mapped Config.hardware n) := by decide

theorem witness_DecodedWordLiesInItsTableRow :
    Config.hardware.Admissible ∧ decode Config.hardware (.txn 0x90000000AA) = .ok (.wrRo (.txb 0)) ∧
    decode Config.hardware (.command 0x010000000003E80100ED) = .ok (.frameCmd 1 0 0 1000 1) := by decide

theorem witness_CommandCodeSelectsOperation : 6 ≤ (6 : Byte).toNat ∧ 6 ≤ (255 : Byte).toNat := by decide

theorem witness_TransactionRowsDecode :
    Config.hardware.Admissible ∧ (Reg.ro (.rxb 9)).wf Config.hardware = true ∧ (ROReg.pay 8).wf Config.hardware = true ∧
    (9 : BitVec 4).toNat < Config.hardware.frameLen ∧ (8 : BitVec 4).toNat < Config.hardware.payloadLen ∧
    Config.Admissible ⟨15⟩ ∧ (15 : BitVec 4).toNat < Config.frameLen ⟨15⟩ ∧ (14 : BitVec 4).toNat < 15 := by decide

theorem witness_ChecksumIsByteSumModulo256 :
    Config.hardware.Admissible ∧
    Codec.encode Config.hardware 6 1 2 (-2) 3 = .ok [6, 1, 2, 0xFF, 0xFF, 0xFF, 0xFE, 3, 0, 7] := by decide

theorem witness_ChecksumLaws :
    (replyFrame.take 9).length = 9 ∧ [1#8, 2].Perm [2, 1] ∧ replyFrame.length = Config.hardware.frameLen ∧
    Codec.byteAt replyFrame 9 = Codec.checksum (replyFrame.take 9) := by decide

theorem witness_SingleSubstitutionInvalidates :
    Codec.validate Config.hardware replyFrame = .ok 0x50 ∧
    (0 < Config.hardware.frameLen ∧ (0x65 : Byte) ≠ Codec.byteAt replyFrame 0) ∧
    (9 < Config.hardware.frameLen ∧ (0x51 : Byte) ≠ Codec.byteAt replyFrame 9) := by decide

theorem witness_CompensatingChangesAreNotDetected :
    Codec.validate Config.hardware replyFrame = .ok 0x50 ∧ 0 < Config.hardware.payloadLen ∧ 8 < Config.hardware.payloadLen ∧
    (0 : Nat) ≠ 8 ∧ [1#8, 0x64, 0, 0, 3, 0xE8, 0, 0, 0].Perm (replyFrame.take Config.hardware.payloadLen) := by decide

theorem witness_ValidateTestsLengthThenChecksum :
    ([] : List Byte).length ≠ Config.hardware.frameLen ∧ (replyFrame.take 9).length = Config.hardware.payloadLen ∧
    replyFrame = replyFrame.take 9 ++ [0x50] ∧ Codec.checksum (replyFrame.take 9) = 0x50 ∧
    Codec.checksum (replyFrame.take 9) ≠ 0x51 := by decide

theorem witness_DecodeIsValidateDroppingChecksum :
    (replyFrame.take 9).length ≠ Config.hardware.frameLen ∧
    Codec.validate Config.hardware (replyFrame.set 9 0x51) = .error .checksumError ∧
    Codec.validate Config.hardware replyFrame = .ok 0x50 := by decide

theorem witness_EncodeSerialisesFields :
    (Codec.valueMin ≤ -2147483648 ∧ -2147483648 ≤ Codec.valueMax) ∧
    (Codec.valueMin ≤ 2147483647 ∧ 2147483647 ≤ Codec.valueMax) ∧ Config.hardware.Admissible ∧
    -2147483649 < Codec.valueMin ∧ Codec.valueMax < 2147483648 := by decide

theorem witness_ValueBytesAreInverse : Codec.valueMin ≤ -2147483648 ∧ -2147483648 ≤ Codec.valueMax := by decide

/-- Two encodings that agree on the positions 0 to 7, so on the fields. -/
theorem witness_EncodeIsValidAndInjective :
    Config.hardware.Admissible ∧
    Codec.encode Config.hardware 6 1 2 (-2) 3 = .ok [6, 1, 2, 0xFF, 0xFF, 0xFF, 0xFE, 3, 0, 7] := by decide

theorem witness_FrameRoundTrip :
    Config.Admissible ⟨8⟩ ∧ Codec.encode ⟨8⟩ 6 1 2 (-2) 3 = .ok [6, 1, 2, 0xFF, 0xFF, 0xFF, 0xFE, 3, 7] := by decide

theorem witness_EncodedFrameChecksumSensitivity :
    Config.hardware.Admissible ∧
    Codec.encode Config.hardware 6 1 2 (-2) 3 = .ok [6, 1, 2, 0xFF, 0xFF, 0xFF, 0xFE, 3, 0, 7] ∧
    9 < Config.hardware.frameLen ∧ (8 : Byte) ≠ Codec.byteAt [6, 1, 2, 0xFF, 0xFF, 0xFF, 0xFE, 3, 0, 7] 9 := by decide

theorem witness_ReadReturnsTheNamedRegister :
    received.cfg.Admissible ∧ received.blk.txb.length = received.cfg.frameLen ∧ received.blk.rxb.length = received.cfg.frameLen ∧
    received.blk.pay.length = received.cfg.payloadLen ∧ received.blk.pay = [0, 0, 0, 0, 0, 0, 0, 0, 0] ∧
    (9 : BitVec 4).toNat < received.cfg.frameLen ∧ (8 : BitVec 4).toNat < received.cfg.payloadLen := by decide

theorem witness_ReadsHaveNoSideEffect : ∃ t, exec (.rd (.ro (.rxb 9))) received = .next t ∧ t.response = some 0x50 :=
  ⟨_, rfl, by decide⟩

theorem witness_ReadOnlyWriteIsIgnored :
    received.cfg.Admissible ∧ received.blk.txb.length = received.cfg.frameLen ∧ received.blk.rxb.length = received.cfg.frameLen ∧
    received.blk.pay.length = received.cfg.payloadLen ∧ (ROReg.rxb 9).wf received.cfg = true := by decide

theorem witness_UnmappedTransactionIsRefused :
    unmappedRead.input = [.word (.txn 0x3900000000)] ∧
    ¬ Mapped unmappedRead.cfg ((0x3900000000 : TxnWord).extractLsb' 32 7).toNat := by decide

/-- The F-th push, the one after it, the saturated count. -/
theorem witness_PushStoresAndCounts :
    Config.hardware.Admissible ∧ (9 : Byte).toNat < Config.hardware.frameLen ∧
    Config.hardware.frameLen ≤ (10 : Byte).toNat ∧ (10 : Byte) ≠ 255 ∧
    (withBlock { Block.reset Config.hardware with rxn := 255 }).blk.rxn = 255 := by decide

theorem witness_IllegalCommandIsReported : 6 ≤ (0x06 : Byte).toNat := by decide

theorem witness_PushedBytesAreCountedAndStored :
    received.cfg.Admissible ∧ received.blk.rxb.length = received.cfg.frameLen := by decide

theorem witness_EncEncodesTheOperands :
    Codec.encode State.reset.cfg 0 0 0 (State.reset.blk.vhi ++ State.reset.blk.vlo).toInt 0 = .ok (List.replicate 10 0) ∧
    Codec.valueMax < (outOfRange.blk.vhi ++ outOfRange.blk.vlo).toInt ∧
    (0xFFFFFFFF7FFFFFFF#64).toInt < Codec.valueMin := by decide

theorem witness_DecValidatesAndLatches :
    State.reset.blk.rxn.toNat ≠ State.reset.cfg.frameLen ∧
    (damaged.blk.rxn.toNat = damaged.cfg.frameLen ∧
      Codec.checksum (damaged.blk.rxb.take damaged.cfg.payloadLen) ≠ Codec.byteAt damaged.blk.rxb damaged.cfg.payloadLen) ∧
    (received.blk.rxn.toNat = received.cfg.frameLen ∧
      Codec.checksum (received.blk.rxb.take received.cfg.payloadLen) =
        Codec.byteAt received.blk.rxb received.cfg.payloadLen) ∧
    received.blk.rxb.length = received.cfg.frameLen ∧
    received.blk.rxn.toNat - received.cfg.frameLen ≤ ([] : List Byte).length := by decide

theorem witness_DecValidatesAndLatches_input :
    (∃ t, exec .dec received = .next t) ∧
    Codec.decode received.cfg (received.received []) = .ok (replyFrame.take 9) := ⟨⟨_, rfl⟩, by decide⟩

theorem witness_VfyValidatesOnly :
    State.reset.blk.rxn.toNat ≠ State.reset.cfg.frameLen ∧
    (damaged.blk.rxn.toNat = damaged.cfg.frameLen ∧
      Codec.checksum (damaged.blk.rxb.take damaged.cfg.payloadLen) ≠ Codec.byteAt damaged.blk.rxb damaged.cfg.payloadLen) ∧
    (received.blk.rxn.toNat = received.cfg.frameLen ∧
      Codec.checksum (received.blk.rxb.take received.cfg.payloadLen) =
        Codec.byteAt received.blk.rxb received.cfg.payloadLen) := by decide

/-- The three verdicts on ten received bytes, and on one byte more, which is lost. -/
theorem witness_DecAndVfyJudgeTheReceivedInput :
    received.blk.rxb.length = received.cfg.frameLen ∧
    Codec.decode received.cfg (received.received []) = .ok (replyFrame.take 9) ∧
    Codec.validate received.cfg (received.received []) = .ok 0x50 ∧
    Codec.decode damaged.cfg (damaged.received []) = .error .checksumError ∧
    (let s := withBlock { received.blk with rxn := 11 }
     s.blk.rxn.toNat - s.cfg.frameLen ≤ [0x77#8].length ∧ Codec.decode s.cfg (s.received [0x77]) = .error .frameLengthError ∧
      Codec.validate s.cfg (s.received [0x77]) = .error .frameLengthError) := by decide

theorem witness_ReceivingASequenceDecodesIt :
    State.reset.cfg.Admissible ∧ State.reset.blk.rxb.length = State.reset.cfg.frameLen ∧
    Codec.decode State.reset.cfg replyFrame = .ok (replyFrame.take 9) ∧
    Codec.decode State.reset.cfg [] = .error .frameLengthError := by decide

theorem witness_ReplyValidIsRxvAndAm :
    State.reset.cfg.Admissible ∧ State.reset.blk.rxb.length = State.reset.cfg.frameLen ∧
    Codec.replyValid State.reset.cfg replyFrame 1 = true ∧ Codec.replyValid State.reset.cfg replyFrame 2 = false := by decide

/-- The frame of `replyFrame`, received from reset: RXV ends 1. -/
theorem witness_ReplyValidIsRxvAndAm_accepted :
    ∃ t, execList (.rxc :: replyFrame.map .push ++ [.dec]) State.reset = .next t ∧ t.blk.st.rxv = true := ⟨_, rfl, by decide⟩

theorem witness_BlockRoundTrip :
    State.reset.cfg.Admissible ∧ State.reset.blk.rxb.length = State.reset.cfg.frameLen ∧
    Codec.valueMin ≤ (State.reset.blk.vhi ++ State.reset.blk.vlo).toInt ∧
    (State.reset.blk.vhi ++ State.reset.blk.vlo).toInt ≤ Codec.valueMax := by decide

/-- Two states that differ in CSUM and ST only. -/
theorem witness_OutcomesDependOnTheirInputsOnly :
    let s := received
    let s' := withBlock { received.blk with csum := 7, st := statusOf 0x0110 }
    s.cfg = s'.cfg ∧ s.blk.csum ≠ s'.blk.csum ∧ s.blk.rxb = s'.blk.rxb ∧ s.blk.rxn = s'.blk.rxn ∧ s.blk.adr = s'.blk.adr ∧
    s.blk.opc = s'.blk.opc ∧ s.blk.vlo = s'.blk.vlo ∧ s.blk.rxn.toNat = s.cfg.frameLen ∧
    (∃ e e' d d' v v', exec .enc s = .next e ∧ exec .enc s' = .next e' ∧ exec .dec s = .next d ∧ exec .dec s' = .next d' ∧
      exec .vfy s = .next v ∧ exec .vfy s' = .next v' ∧ e.blk.st.txv = true ∧ d.blk.st.rxv = true) :=
  ⟨rfl, by decide, rfl, rfl, rfl, rfl, rfl, rfl, _, _, _, _, _, _, rfl, rfl, rfl, rfl, rfl, rfl, by decide, by decide⟩

theorem witness_FrameCmdPutsItsWordInTheTransmitBuffer : State.reset.cfg = Config.hardware := by decide

/-- The checksum byte of `replyFrame` is 0x50: right with k = 0x50, wrong with k = 0x51. -/
theorem witness_FrameReplyIsValidatedAndShown :
    State.reset.cfg = Config.hardware ∧ State.reset.blk.rxb.length = 10 ∧
    ∃ t u, exec (.frameReply 0x64 1 1000 0 0 0 0x50) State.reset = .next t ∧
      0x50 = Codec.checksum (t.blk.rxb.take 9) ∧
      exec (.frameReply 0x64 1 1000 0 0 0 0x51) State.reset = .next u ∧
      0x51 ≠ Codec.checksum (u.blk.rxb.take 9) :=
  ⟨rfl, rfl, _, _, rfl, by decide, rfl, by decide⟩

theorem witness_OnlyTheHostWritesOperands :
    ∃ t, exec (.wrOpc 5) State.reset = .next t ∧ (∀ o ty m v a, Instr.wrOpc 5 ≠ .frameCmd o ty m v a) ∧
      t.blk.opc ≠ State.reset.blk.opc := ⟨_, rfl, nofun, by decide⟩

/-- An ENC that writes TXB, and one that clears TXV. -/
theorem witness_TransmitBufferIsWrittenBySuccessfulEncOnly :
    (∃ t, exec .enc received = .next t ∧ t.blk.txb ≠ received.blk.txb ∧ t.blk.st.txv ≠ received.blk.st.txv) ∧
    (∃ t, exec .enc outOfRange = .next t ∧ t.blk.st.txv ≠ outOfRange.blk.st.txv ∧ t.blk.st.txv = false) :=
  ⟨⟨_, rfl, by decide, by decide⟩, _, rfl, by decide, by decide⟩

theorem witness_ReceiveBufferIsWrittenByPushOnly :
    ∃ t, exec (.push 7) State.reset = .next t ∧ (∀ st a v x0 x1 x2 k, Instr.push 7 ≠ .frameReply st a v x0 x1 x2 k) ∧
      t.blk.rxb ≠ State.reset.blk.rxb ∧ t.blk.rxn ≠ State.reset.blk.rxn ∧ (1 : Nat) ≠ State.reset.blk.rxn.toNat :=
  ⟨_, rfl, nofun, by decide, by decide, by decide⟩

/-- A DEC that accepts, and one that does not. -/
theorem witness_PayloadIsWrittenByAcceptingDecOnly :
    (∃ t, exec .dec received = .next t ∧ t.blk.pay ≠ received.blk.pay) ∧
    (∃ t, exec .dec damaged = .next t ∧ t.blk.st.err ≠ 0) := ⟨⟨_, rfl, by decide⟩, _, rfl, by decide⟩

theorem witness_ChecksumRegisterHoldsTheLastComputed :
    (∃ t, exec .dec damaged = .next t ∧ t.blk.csum ≠ damaged.blk.csum) ∧
    (∃ t, exec .enc received = .next t ∧ t.blk.st.err = 0) ∧ (∃ t, exec .enc outOfRange = .next t ∧ t.blk.st.err ≠ 0) ∧
    (∃ t, exec .vfy received = .next t) ∧ received.blk.rxn.toNat = received.cfg.frameLen ∧
    (∃ t, exec .vfy State.reset = .next t) ∧ State.reset.blk.rxn.toNat ≠ State.reset.cfg.frameLen :=
  ⟨⟨_, rfl, by decide⟩, ⟨_, rfl, by decide⟩, ⟨_, rfl, by decide⟩, ⟨_, rfl⟩, rfl, ⟨_, rfl⟩, by decide⟩

/-- One instruction of each kind. -/
theorem witness_ErrorCodeIsOfTheLastOperation :
    (∃ t, exec .enc outOfRange = .next t) ∧ (∃ t, exec .dec damaged = .next t) ∧
    (∃ t, exec (.illegal 6) received = .next t) ∧ (∃ t, exec .cle received = .next t) ∧
    (∃ t, exec (.push 1) received = .next t) := ⟨⟨_, rfl⟩, ⟨_, rfl⟩, ⟨_, rfl⟩, ⟨_, rfl⟩, _, rfl⟩

/-- Each error raised once; a reset event. -/
theorem witness_StickyFlagsPersistUntilCle :
    (∃ t, exec .enc outOfRange = .next t ∧ t.blk.st.err = 1) ∧ (∃ t, exec .dec State.reset = .next t ∧ t.blk.st.err = 2) ∧
    (∃ t, exec .vfy damaged = .next t ∧ t.blk.st.err = 3) ∧ (∃ t, exec (.illegal 6) received = .next t ∧ t.blk.st.err = 4) ∧
    ({ received with input := [.reset] } : State).input = [.reset] :=
  ⟨⟨_, rfl, by decide⟩, ⟨_, rfl, by decide⟩, ⟨_, rfl, by decide⟩, ⟨_, rfl, by decide⟩, rfl⟩

theorem witness_NoErrorRunsRaiseNothing :
    Instr.cle ∉ [Instr.rxc, .dec] ∧ (∃ t, execList [.enc, .rxc] received = .next t ∧ t.NoError) ∧
    received.blk.st.err = 0 := ⟨by decide, ⟨_, rfl, rfl, rfl, rfl, rfl⟩, rfl⟩

theorem witness_ResetStepLeavesOneState : ({ received with input := [.reset] } : State).input = [.reset] := rfl

theorem witness_ResetStateHasDefinedReadings :
    Config.Admissible ⟨8⟩ ∧ Config.Admissible ⟨15⟩ ∧ (Reg.ro (.txb 8)).wf ⟨8⟩ = true := by decide

theorem witness_StepRunsTheDecodedInstruction :
    (State.reset.withFetchWord 40 0x1900000000).input = [.word (.txn 0x1900000000)] ∧
    decode Config.hardware (.txn 0x1900000000) = .ok (.rd (.ro (.txb 9))) ∧
    (Instr.rd (.ro (.txb 9))).wf Config.hardware = true := by decide

/-- A word, a reset event, nothing. -/
theorem witness_StepTakesOneEventInOrder :
    (∃ t, step (State.reset.withFetchWord 40 0x8000000001) = .next t) ∧
    (∃ t, step { received with input := [.reset] } = .next t) ∧ (∃ t, step received = .next t) ∧ received.input = [] :=
  ⟨⟨_, rfl⟩, ⟨_, rfl⟩, ⟨_, rfl⟩, rfl⟩

/-- A state of the invariant with bytes received, a target, and this program. -/
def legal (input : List HostEvent) : State := { received with input := input }

theorem legal_inv (input : List HostEvent) : (legal input).Inv where
  admissible := (by decide : received.cfg.Admissible)
  txb_length := rfl
  rxb_length := rfl
  pay_length := rfl
  err_le := (by decide : received.blk.st.err ≤ 4#3)
  err_sticky := ⟨nofun, nofun, nofun, nofun⟩
  encode_error_invalid := nofun
  am_decoded := nofun
  txv_encoded h := by cases h

/-- A read of TXB[9]; a command frame, V-E1; a reply frame. -/
theorem witness_MappedTransactionsAlwaysComplete :
    (legal [.word (.txn 0x1900000000)]).Inv ∧ Mapped Config.hardware ((0x1900000000 : TxnWord).extractLsb' 32 7).toNat ∧
    (legal [.word (.command 0x010000000003E80100ED)]).Inv ∧
    (∃ i, decode Config.hardware (.command 0x010000000003E80100ED) = .ok i) ∧ (legal [.word (.reply 0)]).Inv :=
  ⟨legal_inv _, by decide, legal_inv _, ⟨.frameCmd 1 0 0 1000 1, by decide⟩, legal_inv _⟩

theorem witness_InvariantHoldsAtReset : Config.Admissible ⟨8⟩ ∧ Config.Admissible ⟨9⟩ ∧ Config.Admissible ⟨15⟩ := by decide

theorem witness_StepKeepsInvariant :
    (legal [.word (.txn 0x8000000002)]).Inv ∧
    ∃ t, step (legal [.word (.txn 0x8000000002)]) = .next t ∧ t.blk.st.rxv = true := ⟨legal_inv _, _, rfl, by decide⟩

end Sys2Proof.Tests
end

section
/-! PROOFS. The invariant of a legal state: where it starts (spec/10_state.md R29). -/

namespace Sys2Proof.Machine

@[simp] theorem Status.reset_txv : Status.reset.txv = false := rfl
@[simp] theorem Status.reset_am : Status.reset.am = false := rfl
@[simp] theorem Status.reset_err : Status.reset.err = 0 := rfl

/-- A block at its reset values is legal whatever the host's program and its last answer are, so this serves the machine after
reset (R29) and a reset event in the middle of a program (R150). No error, no match and no encoded frame is reported, which
leaves only the sizes of the buffers to meet. -/
theorem State.inv_of_blk_reset {s : State} (hc : s.cfg.Admissible) (hb : s.blk = Block.reset s.cfg) : s.Inv where
  admissible := hc
  txb_length := by simp [hb]
  rxb_length := by simp [hb]
  pay_length := by simp [hb]
  err_le := by simp [hb]
  err_sticky := by simp [hb]
  encode_error_invalid := by simp [hb]
  am_decoded := by simp [hb]
  txv_encoded := by simp [hb]

/-- Settles O59: the machine after reset is a state whose block is at its reset values. -/
theorem invariantHoldsAtReset : Obligations.InvariantHoldsAtReset := fun _ hc => State.inv_of_blk_reset hc rfl

end Sys2Proof.Machine
end

section
/-! PROOFS. Every step keeps the invariant of a legal state (spec/10_state.md R10, R13, R18 to R22). -/

namespace Sys2Proof.Codec

/-- What Encode gives fills a buffer of F cells. -/
theorem encode_ok_length {c : Config} (hc : c.Admissible) {o t m : Byte} {v : Int} {a : Byte}
    {f : List Byte} (hf : encode c o t m v a = .ok f) : f.length = c.frameLen := by
  obtain ⟨-, -, rfl⟩ := encode_ok_iff.mp hf
  simp [payload_length, hc.1, Config.frameLen]

end Sys2Proof.Codec

namespace Sys2Proof.Machine

/-- The invariant speaks of the configuration and the block, not of the host's program or the last answer. -/
theorem State.Inv.congr {s t : State} (hs : s.Inv) (hc : t.cfg = s.cfg) (hb : t.blk = s.blk) : t.Inv := by
  obtain ⟨cfg, blk, input, response⟩ := t
  cases hc
  cases hb
  exact { hs with }

/-! ### One lemma per kind of write -/

/-- Writes to the operand registers and to the receive buffer leave a state legal: RXB keeps its size, and the status, TXB and
PAY are as before. -/
theorem State.Inv.commit_of_status_kept {s : State} (hs : s.Inv) {b : Block} (htxb : b.txb = s.blk.txb)
    (hrxb : b.rxb.length = s.blk.rxb.length) (hpay : b.pay = s.blk.pay) (hst : b.st = s.blk.st) : (s.commit b).Inv := by
  obtain ⟨opc, typ, mot, adr, vlo, vhi, rxn, csum, st, txb, rxb, pay⟩ := b
  cases htxb
  cases hpay
  cases hst
  exact { hs with rxb_length := hrxb.trans hs.rxb_length }

/-- A successful ENC: TXV comes with a frame that Encode gives (R13, R18). -/
theorem State.Inv.commit_encoded {s : State} (hs : s.Inv) {o t m : Byte} {v : Int} {a : Byte} {f : List Byte}
    (hf : Codec.encode s.cfg o t m v a = .ok f) (k : Byte) :
    (s.commit { s.blk with txb := f, csum := k, st := { s.blk.st with txv := true, err := 0 } }).Inv :=
  { hs with
    txb_length := Codec.encode_ok_length hs.admissible hf
    err_le := by simp
    err_sticky := by simp
    encode_error_invalid := by simp
    txv_encoded := fun _ => ⟨o, t, m, v, a, hf⟩ }

theorem State.Inv.commit_enc {s : State} (hs : s.Inv) : (s.commit (s.blk.enc s.cfg)).Inv := by
  rcases Block.enc_cases s.cfg s.blk with ⟨f, hf, e⟩ | ⟨-, e⟩
  · rw [e]
    exact hs.commit_encoded hf _
  · rw [e]
    exact { hs with
      err_le := by simp
      err_sticky := by simp
      encode_error_invalid := by simp
      txv_encoded := by simp }

/-- DEC reports an address match only beside RXV, and an accepted payload is the first P of RXB's F bytes (R19, R20). -/
theorem State.Inv.commit_dec {s : State} (hs : s.Inv) : (s.commit (s.blk.dec s.cfg)).Inv := by
  rcases Block.dec_cases s.cfg s.blk with ⟨-, e⟩ | ⟨-, -, e⟩ | ⟨-, -, e⟩
  all_goals
    rw [e]
    exact { hs with
      pay_length := by simp [hs.pay_length, hs.rxb_length, Config.frameLen]
      err_le := by simp
      err_sticky := by simp
      encode_error_invalid := by simp
      am_decoded := by simp }

theorem State.Inv.commit_vfy {s : State} (hs : s.Inv) : (s.commit (s.blk.vfy s.cfg)).Inv := by
  rcases Block.vfy_cases s.cfg s.blk with ⟨-, e⟩ | ⟨-, -, e⟩ | ⟨-, -, e⟩
  all_goals
    rw [e]
    exact { hs with err_le := by simp, err_sticky := by simp, encode_error_invalid := by simp }

/-! ### Every instruction, then every step -/

/-- Whatever an instruction makes of the block of a legal state is legal. -/
theorem BlockAfter.keeps_inv {i : Instr} {s : State} {b : Block} (hs : s.Inv) (h : BlockAfter s.cfg s.blk i b) :
    (s.commit b).Inv := by
  cases i with
  | enc => cases h; exact hs.commit_enc
  | dec => cases h; exact hs.commit_dec
  | vfy => cases h; exact hs.commit_vfy
  | cle => cases h; exact { hs with err_le := by simp, err_sticky := by simp, encode_error_invalid := by simp }
  | illegal code =>
    cases h; exact { hs with err_le := by simp, err_sticky := by simp, encode_error_invalid := by simp }
  | frameCmd o t m v a =>
    obtain ⟨f, hf, rfl⟩ := h
    have hl : (s.commit { s.blk with
        opc := o, typ := t, mot := m, vlo := v, vhi := valueHigh v.toInt, adr := a }).Inv :=
      hs.commit_of_status_kept rfl rfl rfl rfl
    exact hl.commit_encoded hf _
  | frameReply st a v x0 x1 x2 k =>
    obtain ⟨x, y, hy, rfl⟩ := h
    have hp : (s.commit { s.blk with rxn := x, rxb := y }).Inv := hs.commit_of_status_kept rfl hy rfl rfl
    exact hp.commit_dec
  | push d => cases h; exact hs.commit_of_status_kept rfl (Block.push_rxb_length _ _ _) rfl rfl
  | _ => cases h; exact hs.commit_of_status_kept rfl rfl rfl rfl

theorem exec_keeps_inv {i : Instr} {s t : State} (hs : s.Inv) (h : exec i s = .next t) : t.Inv :=
  (BlockAfter.keeps_inv hs (exec_cases h)).congr (exec_next_frame h).1 rfl

/-- Settles O60, by the three kinds of step: none, a reset, or an instruction of a legal state. -/
theorem stepKeepsInvariant : Obligations.StepKeepsInvariant := by
  intro s t hs h
  rcases step_cases h with ⟨-, rfl⟩ | ⟨rest, -, rfl⟩ | ⟨w, rest, i, -, -, h⟩
  · exact hs
  · exact State.inv_of_blk_reset hs.admissible rfl
  · exact exec_keeps_inv (hs.congr (t := { s with input := rest }) rfl rfl) h

end Sys2Proof.Machine
end

section
/-! PROOFS. The received input (spec/10_state.md R14) and the verdicts of ENC, DEC and VFY on it (R27, spec/40_checksum.md R84,
spec/42_decode.md R101). -/

namespace Sys2Proof.Machine

/-- Settles O31: RXC and the pushes are one run of pushAll on the emptied buffer. -/
theorem pushedBytesAreCountedAndStored : Obligations.PushedBytesAreCountedAndStored := by
  intro s bytes hc hb
  have hF : s.cfg.frameLen ≤ 255 := Nat.le_trans (Nat.succ_le_succ hc.2) (by decide)
  have hrun := execList_rxc_push s bytes []
  rw [List.append_nil, Block.rxc_pushAll _ hF _ _ hb] at hrun
  exact hrun

/-! ### The received input -/

theorem State.received_length {s : State} {lost : List Byte} (hb : s.blk.rxb.length = s.cfg.frameLen)
    (hl : s.blk.rxn.toNat - s.cfg.frameLen ≤ lost.length) : (s.received lost).length = s.blk.rxn.toNat := by
  unfold State.received
  split <;> simp <;> omega

theorem State.received_full {s : State} {lost : List Byte} (hb : s.blk.rxb.length = s.cfg.frameLen)
    (hn : s.blk.rxn.toNat = s.cfg.frameLen) : s.received lost = s.blk.rxb := by
  simp [State.received, hn, ← hb]

/-! ### What DEC and VFY report, as functions of the state before -/

/-- The received bytes pass both tests of R83. -/
def Block.accepts (c : Config) (b : Block) : Bool :=
  b.rxn.toNat = c.frameLen ∧ b.computed c = Codec.byteAt b.rxb c.payloadLen

theorem Block.accepts_eq_true {c : Config} {b : Block} :
    b.accepts c = true ↔ b.rxn.toNat = c.frameLen ∧ b.computed c = Codec.byteAt b.rxb c.payloadLen := decide_eq_true_iff

/-- The code of the first test that fails (R135), 0 when none does. -/
theorem Block.dec_err (c : Config) (b : Block) :
    (b.dec c).st.err = if b.accepts c then 0 else if b.rxn.toNat = c.frameLen then 3 else 2 := by
  rcases Block.dec_cases c b with h | h | h <;> simp [h, Block.accepts]

theorem Block.dec_rxv (c : Config) (b : Block) : (b.dec c).st.rxv = b.accepts c := by
  rcases Block.dec_cases c b with h | h | h <;> simp [h, Block.accepts]

theorem Block.dec_am (c : Config) (b : Block) :
    (b.dec c).st.am = (b.accepts c && decide (Codec.byteAt b.rxb 1 = b.adr)) := by
  rcases Block.dec_cases c b with h | h | h <;> simp [h, Block.accepts]

theorem Block.dec_pay (c : Config) (b : Block) :
    (b.dec c).pay = if b.accepts c then b.rxb.take c.payloadLen else b.pay := by
  rcases Block.dec_cases c b with h | h | h <;> simp [h, Block.accepts]

/-- The checksum is computed once the length is right, whatever the verdict on it (R16). -/
theorem Block.dec_csum (c : Config) (b : Block) :
    (b.dec c).csum = if b.rxn.toNat = c.frameLen then b.computed c else b.csum := by
  rcases Block.dec_cases c b with h | h | h <;> simp [h]

theorem Block.vfy_err (c : Config) (b : Block) :
    (b.vfy c).st.err = if b.accepts c then 0 else if b.rxn.toNat = c.frameLen then 3 else 2 := by
  rcases Block.vfy_cases c b with h | h | h <;> simp [h, Block.accepts]

theorem Block.vfy_csum (c : Config) (b : Block) :
    (b.vfy c).csum = if b.rxn.toNat = c.frameLen then b.computed c else b.csum := by
  rcases Block.vfy_cases c b with h | h | h <;> simp [h]

/-! ### The pure functions on the received input -/

/-- Decode of the received input is decided by the block's own tests. -/
theorem State.decode_received {s : State} {lost : List Byte} (hb : s.blk.rxb.length = s.cfg.frameLen)
    (hl : s.blk.rxn.toNat - s.cfg.frameLen ≤ lost.length) :
    Codec.decode s.cfg (s.received lost) =
      if s.blk.accepts s.cfg then .ok (s.blk.rxb.take s.cfg.payloadLen)
      else if s.blk.rxn.toNat = s.cfg.frameLen then .error .checksumError else .error .frameLengthError := by
  by_cases hn : s.blk.rxn.toNat = s.cfg.frameLen
  · rw [State.received_full hb hn]
    simp [Codec.decode, hb, hn, Block.accepts, Block.computed]
  · rw [Codec.decode_length (by rwa [State.received_length hb hl])]
    simp [hn, Block.accepts]

theorem State.validate_received {s : State} {lost : List Byte} (hb : s.blk.rxb.length = s.cfg.frameLen)
    (hl : s.blk.rxn.toNat - s.cfg.frameLen ≤ lost.length) :
    Codec.validate s.cfg (s.received lost) =
      if s.blk.accepts s.cfg then .ok (s.blk.computed s.cfg)
      else if s.blk.rxn.toNat = s.cfg.frameLen then .error .checksumError else .error .frameLengthError := by
  by_cases hn : s.blk.rxn.toNat = s.cfg.frameLen
  · rw [State.received_full hb hn]
    simp [Codec.validate, hb, hn, Block.accepts, Block.computed]
  · rw [Codec.validate_length (by rwa [State.received_length hb hl])]
    simp [hn, Block.accepts]

/-- Settles O35: the block's two tests decide Decode and Validate of the received input as they decide DEC and VFY. -/
theorem decAndVfyJudgeTheReceivedInput : Obligations.DecAndVfyJudgeTheReceivedInput := by
  intro s lost hb hl
  refine ⟨_, _, rfl, rfl, ?_⟩
  simp only [State.commit_blk, State.decode_received hb hl, State.validate_received hb hl, Block.dec_err, Block.dec_rxv,
    Block.dec_am, Block.dec_pay, Block.vfy_err, Block.vfy_csum]
  by_cases ha : s.blk.accepts s.cfg
  · simp [ha, (Block.accepts_eq_true.mp ha).1]
  · by_cases hn : s.blk.rxn.toNat = s.cfg.frameLen <;> simp [ha, hn, errorCode]

/-! ### What the outcomes depend on -/

/-- ENC on two blocks with the same operands: the same verdict, and on success the same frame and checksum (R27). -/
theorem Block.enc_congr {c : Config} {b b' : Block}
    (hf : Codec.encode c b.opc b.typ b.mot b.vin b.adr = Codec.encode c b'.opc b'.typ b'.mot b'.vin b'.adr) :
    (b.enc c).st.txv = (b'.enc c).st.txv ∧ (b.enc c).st.err = (b'.enc c).st.err ∧
    ((b.enc c).st.txv = true → (b.enc c).txb = (b'.enc c).txb ∧ (b.enc c).csum = (b'.enc c).csum) := by
  rcases Block.enc_cases c b with ⟨f, h, e⟩ | ⟨h, e⟩
  · rw [e, Block.enc_ok (hf ▸ h)]
    simp
  · rw [e, Block.enc_error (hf ▸ h)]
    simp

/-- Settles O40: ENC by the frame its operands give; DEC and VFY by their reports, which mention RXB and RXN, and ADR for AM. -/
theorem outcomesDependOnTheirInputsOnly : Obligations.OutcomesDependOnTheirInputsOnly := by
  intro s s' e e' d d' v v' hc he he' hd hd' hv hv'
  have ee : e.blk = s.blk.enc s.cfg := exec_cases he
  have ee' : e'.blk = s'.blk.enc s.cfg := hc ▸ exec_cases he'
  have ed : d.blk = s.blk.dec s.cfg := exec_cases hd
  have ed' : d'.blk = s'.blk.dec s.cfg := hc ▸ exec_cases hd'
  have ev : v.blk = s.blk.vfy s.cfg := exec_cases hv
  have ev' : v'.blk = s'.blk.vfy s.cfg := hc ▸ exec_cases hv'
  rw [ee, ee', ed, ed', ev, ev']
  constructor
  · intro ho ht hm ha hlo hhi
    exact Block.enc_congr (by rw [Block.vin, Block.vin, ho, ht, hm, ha, hlo, hhi])
  · intro hb hn
    have hk : s.blk.computed s.cfg = s'.blk.computed s.cfg := by rw [Block.computed, Block.computed, hb]
    have hA : s.blk.accepts s.cfg = s'.blk.accepts s.cfg := by rw [Block.accepts, Block.accepts, hk, hb, hn]
    simp only [Block.dec_err, Block.dec_rxv, Block.dec_am, Block.dec_pay, Block.dec_csum, Block.vfy_err, Block.vfy_csum,
      hA, hk, hb, hn]
    refine ⟨trivial, trivial, trivial, fun ha => ?_, fun hl => ?_, fun h => ?_⟩
    · simp [ha]
    · simp [hl]
    · rw [h]

end Sys2Proof.Machine
end

section
/-! PROOFS. Who writes what (spec/10_state.md R11 to R16, R18 to R22): each rule by the cases of exec_cases. -/

namespace Sys2Proof.Machine

/-! ### The fields an operation can write -/

theorem Block.enc_frame (c : Config) (b : Block) :
    ∃ f k v e x, b.enc c = { b with txb := f, csum := k, st := { b.st with txv := v, err := e, se := x } } := by
  rcases Block.enc_cases c b with ⟨_, -, e⟩ | ⟨-, e⟩ <;> exact ⟨_, _, _, _, _, e⟩

theorem Block.dec_frame (c : Config) (b : Block) :
    ∃ k p r a e x y, b.dec c = { b with
      csum := k, pay := p, st := { b.st with rxv := r, am := a, err := e, sl := x, sc := y } } := by
  rcases Block.dec_cases c b with ⟨-, e⟩ | ⟨-, -, e⟩ | ⟨-, -, e⟩ <;> exact ⟨_, _, _, _, _, _, _, e⟩

theorem Block.vfy_frame (c : Config) (b : Block) :
    ∃ k e x y, b.vfy c = { b with csum := k, st := { b.st with err := e, sl := x, sc := y } } := by
  rcases Block.vfy_cases c b with ⟨-, e⟩ | ⟨-, -, e⟩ | ⟨-, -, e⟩ <;> exact ⟨_, _, _, _, e⟩

/-- FRAME.REPLY is a DEC of the block it has received. -/
theorem BlockAfter.frameReply_dec {c : Config} {b b' : Block} {st a : Byte} {v : Word} {x0 x1 x2 k : Byte}
    (h : BlockAfter c b (.frameReply st a v x0 x1 x2 k) b') :
    ∃ x y, b' = ({ b with rxn := x, rxb := y } : Block).dec c :=
  let ⟨x, y, _, e⟩ := h
  ⟨x, y, e⟩

theorem BlockAfter.frameReply_frame {c : Config} {b b' : Block} {st a : Byte} {v : Word} {x0 x1 x2 k : Byte}
    (h : BlockAfter c b (.frameReply st a v x0 x1 x2 k) b') :
    ∃ n w k p r m e x y, b' = { b with
      rxn := n, rxb := w, csum := k, pay := p, st := { b.st with rxv := r, am := m, err := e, sl := x, sc := y } } := by
  obtain ⟨n, w, rfl⟩ := h.frameReply_dec
  obtain ⟨_, _, _, _, _, _, _, e⟩ := Block.dec_frame c { b with rxn := n, rxb := w }
  exact ⟨n, w, _, _, _, _, _, _, _, e⟩

/-! ### Operand registers, buffers and payload -/

/-- Settles O45: an operand write sets its own register, and no other instruction's writes reach one. -/
theorem onlyTheHostWritesOperands : Obligations.OnlyTheHostWritesOperands := by
  intro i s t h hi
  have hb := exec_cases h
  generalize t.blk = b at hb ⊢
  cases i with
  | enc => obtain ⟨_, _, _, _, _, e⟩ := Block.enc_frame s.cfg s.blk; cases hb; simp [e]
  | dec => obtain ⟨_, _, _, _, _, _, _, e⟩ := Block.dec_frame s.cfg s.blk; cases hb; simp [e]
  | vfy => obtain ⟨_, _, _, _, e⟩ := Block.vfy_frame s.cfg s.blk; cases hb; simp [e]
  | frameCmd o ty m v a => exact absurd rfl (hi o ty m v a)
  | frameReply st a v x0 x1 x2 k => obtain ⟨_, _, _, _, _, _, _, _, _, rfl⟩ := hb.frameReply_frame; simp
  | _ => cases hb; simp

/-- Settles O46: ENC writes TXB and sets TXV together, or clears TXV with EncodeError; a 32-bit FRAME.CMD cannot fail. -/
theorem transmitBufferIsWrittenBySuccessfulEncOnly : Obligations.TransmitBufferIsWrittenBySuccessfulEncOnly := by
  intro i s t h
  have hb := exec_cases h
  generalize t.blk = b at hb ⊢
  cases i with
  | enc => cases hb; rcases Block.enc_cases s.cfg s.blk with ⟨f, -, e⟩ | ⟨-, e⟩ <;> simp [e]
  | dec => obtain ⟨_, _, _, _, _, _, _, e⟩ := Block.dec_frame s.cfg s.blk; cases hb; simp [e]
  | vfy => obtain ⟨_, _, _, _, e⟩ := Block.vfy_frame s.cfg s.blk; cases hb; simp [e]
  | frameCmd o ty m v a => obtain ⟨f, -, rfl⟩ := hb; simp
  | frameReply st a v x0 x1 x2 k => obtain ⟨_, _, _, _, _, _, _, _, _, rfl⟩ := hb.frameReply_frame; simp
  | _ => cases hb; simp

/-- A push writes at most the cell RXN, and only below F (R14, R117). -/
theorem Block.push_rxb_getElem?_of_ne (c : Config) (b : Block) (d : Byte) {n : Nat} (hn : n ≠ b.rxn.toNat) :
    (b.push c d).rxb[n]? = b.rxb[n]? := by
  rw [Block.push_rxb]
  split
  · exact List.getElem?_set_ne hn.symm
  · rfl

theorem Block.push_rxb_of_full (c : Config) (b : Block) (d : Byte) (h : ¬ b.rxn.toNat < c.frameLen) :
    (b.push c d).rxb = b.rxb := by
  rw [Block.push_rxb, if_neg h]

/-- Settles O47: RXC writes RXN, a push RXN and the cell it names. -/
theorem receiveBufferIsWrittenByPushOnly : Obligations.ReceiveBufferIsWrittenByPushOnly := by
  intro i s t h hi
  have hb := exec_cases h
  generalize t.blk = b at hb ⊢
  cases i with
  | enc => obtain ⟨_, _, _, _, _, e⟩ := Block.enc_frame s.cfg s.blk; cases hb; simp [e]
  | dec => obtain ⟨_, _, _, _, _, _, _, e⟩ := Block.dec_frame s.cfg s.blk; cases hb; simp [e]
  | vfy => obtain ⟨_, _, _, _, e⟩ := Block.vfy_frame s.cfg s.blk; cases hb; simp [e]
  | push d =>
    cases hb
    exact ⟨fun hne => ⟨d, rfl, not_not.mp fun hge => hne (Block.push_rxb_of_full _ _ _ hge)⟩,
      fun n hn => Block.push_rxb_getElem?_of_ne _ _ _ hn, fun _ => .inl ⟨d, rfl⟩⟩
  | frameCmd o ty m v a => obtain ⟨f, -, rfl⟩ := hb; simp
  | frameReply st a v x0 x1 x2 k => exact absurd rfl (hi st a v x0 x1 x2 k)
  | _ => cases hb; simp

/-- DEC writes PAY only when it accepts, and ends with an error only when it does not (R15, R19, R20). -/
theorem Block.dec_payload_rule (c : Config) (b : Block) :
    ((b.dec c).pay ≠ b.pay → (b.dec c).st.rxv = true ∧ (b.dec c).st.err = 0) ∧
    ((b.dec c).st.err ≠ 0 → (b.dec c).st.rxv = false ∧ (b.dec c).st.am = false ∧ (b.dec c).pay = b.pay) := by
  rcases Block.dec_cases c b with ⟨-, e⟩ | ⟨-, -, e⟩ | ⟨-, -, e⟩ <;> simp [e]

/-- Settles O48: DEC, also the one FRAME.REPLY ends in, follows the payload rule; no other instruction's writes reach PAY, RXV
or AM. -/
theorem payloadIsWrittenByAcceptingDecOnly : Obligations.PayloadIsWrittenByAcceptingDecOnly := by
  intro i s t h
  have hb := exec_cases h
  generalize t.blk = b at hb ⊢
  cases i with
  | enc => obtain ⟨_, _, _, _, _, e⟩ := Block.enc_frame s.cfg s.blk; cases hb; simp [e]
  | vfy => obtain ⟨_, _, _, _, e⟩ := Block.vfy_frame s.cfg s.blk; cases hb; simp [e]
  | dec =>
    cases hb
    obtain ⟨hw, he⟩ := Block.dec_payload_rule s.cfg s.blk
    exact ⟨hw, fun _ => .inl rfl, fun _ => he⟩
  | frameCmd o ty m v a => obtain ⟨f, -, rfl⟩ := hb; simp
  | frameReply st a v x0 x1 x2 k =>
    obtain ⟨x, y, rfl⟩ := hb.frameReply_dec
    obtain ⟨hw, he⟩ := Block.dec_payload_rule s.cfg { s.blk with rxn := x, rxb := y }
    exact ⟨hw, fun _ => .inr ⟨st, a, v, x0, x1, x2, k, rfl⟩, fun _ => he⟩
  | _ => cases hb; simp

/-! ### CSUM, ERR and the sticky flags -/

/-- Settles O49: who writes CSUM by the cases of exec; what it holds by the endings of ENC and the reports of DEC and VFY. -/
theorem checksumRegisterHoldsTheLastComputed : Obligations.ChecksumRegisterHoldsTheLastComputed := by
  refine ⟨fun i s t h => ?_, fun s t h => ?_, fun i s t hi h => ?_⟩
  · have hb := exec_cases h
    cases i with
    | enc | dec | vfy | frameCmd | frameReply => simp
    | _ => exact fun hne => absurd (congrArg Block.csum hb) hne
  · rw [show t.blk = s.blk.enc s.cfg from exec_cases h]
    rcases Block.enc_cases s.cfg s.blk with ⟨f, -, e⟩ | ⟨-, e⟩ <;> simp [e]
  · have hk : t.blk.csum = if s.blk.rxn.toNat = s.cfg.frameLen then s.blk.computed s.cfg else s.blk.csum := by
      rcases hi with rfl | rfl
      · rw [show t.blk = s.blk.dec s.cfg from exec_cases h, Block.dec_csum]
      · rw [show t.blk = s.blk.vfy s.cfg from exec_cases h, Block.vfy_csum]
    exact ⟨fun hn => by rw [hk, if_pos hn, Block.computed], fun hn => by rw [hk, if_neg hn]⟩

/-- Settles O50: ENC, DEC and VFY by their endings; the writes of the last group do not reach ST. -/
theorem errorCodeIsOfTheLastOperation : Obligations.ErrorCodeIsOfTheLastOperation := by
  intro i s t h
  have hb := exec_cases h
  generalize t.blk = b at hb ⊢
  refine ⟨?_, ?_, ?_, ?_, ?_⟩
  · rintro rfl
    cases hb
    rcases Block.enc_cases s.cfg s.blk with ⟨f, -, e⟩ | ⟨-, e⟩ <;> simp [e]
  · rintro (rfl | rfl) <;> cases hb
    · rcases Block.dec_cases s.cfg s.blk with ⟨-, e⟩ | ⟨-, -, e⟩ | ⟨-, -, e⟩ <;> simp [e]
    · rcases Block.vfy_cases s.cfg s.blk with ⟨-, e⟩ | ⟨-, -, e⟩ | ⟨-, -, e⟩ <;> simp [e]
  · rintro ⟨code, rfl⟩
    cases hb
    rfl
  · rintro rfl
    cases hb
    rfl
  · rintro (rfl | rfl | ⟨d, rfl⟩ | ⟨d, rfl⟩ | ⟨d, rfl⟩ | ⟨d, rfl⟩ | ⟨d, rfl⟩ | ⟨d, rfl⟩ | ⟨d, rfl⟩ | ⟨r, rfl⟩ | ⟨r, rfl⟩) <;>
      cases hb <;> rfl

/-- From status t to u every set sticky flag is kept, and one is set only with its code in ERR (R22). -/
def Status.StickyKept (t u : Status) : Prop :=
  u.se = (t.se || (u.se && u.err == 1)) ∧ u.sl = (t.sl || (u.sl && u.err == 2)) ∧
  u.sc = (t.sc || (u.sc && u.err == 3)) ∧ u.si = (t.si || (u.si && u.err == 4))

/-- An error code stands beside the sticky flag of its name (R21, R22). -/
def Status.CodeFlagged (t : Status) : Prop :=
  (t.err = 1 → t.se = true) ∧ (t.err = 2 → t.sl = true) ∧ (t.err = 3 → t.sc = true) ∧ (t.err = 4 → t.si = true)

/-- A status whose sticky flags have not changed keeps them, whatever its ERR is. -/
theorem Status.stickyKept_of_flags_eq {t u : Status} (he : u.se = t.se) (hl : u.sl = t.sl) (hc : u.sc = t.sc)
    (hi : u.si = t.si) : t.StickyKept u := by
  simp +contextual [Status.StickyKept, he, hl, hc, hi]

theorem Block.enc_sticky (c : Config) (b : Block) : b.st.StickyKept (b.enc c).st ∧ (b.enc c).st.CodeFlagged := by
  rcases Block.enc_cases c b with ⟨f, -, e⟩ | ⟨-, e⟩ <;> simp [e, Status.StickyKept, Status.CodeFlagged]

theorem Block.dec_sticky (c : Config) (b : Block) : b.st.StickyKept (b.dec c).st ∧ (b.dec c).st.CodeFlagged := by
  rcases Block.dec_cases c b with ⟨-, e⟩ | ⟨-, -, e⟩ | ⟨-, -, e⟩ <;> simp [e, Status.StickyKept, Status.CodeFlagged]

theorem Block.vfy_sticky (c : Config) (b : Block) : b.st.StickyKept (b.vfy c).st ∧ (b.vfy c).st.CodeFlagged := by
  rcases Block.vfy_cases c b with ⟨-, e⟩ | ⟨-, -, e⟩ | ⟨-, -, e⟩ <;> simp [e, Status.StickyKept, Status.CodeFlagged]

/-- An illegal command reports itself in ERR and SI at once (R121). -/
theorem Status.illegal_sticky (t : Status) :
    t.StickyKept { t with err := 4, si := true } ∧ Status.CodeFlagged { t with err := 4, si := true } := by
  simp [Status.StickyKept, Status.CodeFlagged]

/-- Every instruction but CLE keeps the sticky flags (R22). -/
theorem BlockAfter.stickyKept {c : Config} {b b' : Block} {i : Instr} (h : BlockAfter c b i b') (hi : i ≠ .cle) :
    b.st.StickyKept b'.st := by
  cases i with
  | enc => cases h; exact (Block.enc_sticky c b).1
  | dec => cases h; exact (Block.dec_sticky c b).1
  | vfy => cases h; exact (Block.vfy_sticky c b).1
  | illegal code => cases h; exact (Status.illegal_sticky b.st).1
  | cle => exact absurd rfl hi
  | frameCmd o t m v a => obtain ⟨f, -, rfl⟩ := h; exact Status.stickyKept_of_flags_eq rfl rfl rfl rfl
  | frameReply st a v x0 x1 x2 k =>
    obtain ⟨x, y, rfl⟩ := h.frameReply_dec
    exact (Block.dec_sticky c { b with rxn := x, rxb := y }).1
  | _ => cases h; exact Status.stickyKept_of_flags_eq rfl rfl rfl rfl

/-- An operation that writes ERR leaves it beside its flag (R21, R22). -/
theorem BlockAfter.codeFlagged {c : Config} {b b' : Block} {i : Instr} (h : BlockAfter c b i b')
    (hi : i = .enc ∨ i = .dec ∨ i = .vfy ∨ ∃ code, i = .illegal code) : b'.st.CodeFlagged := by
  rcases hi with rfl | rfl | rfl | ⟨code, rfl⟩
  · cases h; exact (Block.enc_sticky c b).2
  · cases h; exact (Block.dec_sticky c b).2
  · cases h; exact (Block.vfy_sticky c b).2
  · cases h; exact (Status.illegal_sticky b.st).2

/-- Settles O51: CLE and reset write the four flags 0; for the rest see stickyKept and codeFlagged. -/
theorem stickyFlagsPersistUntilCle : Obligations.StickyFlagsPersistUntilCle := by
  refine ⟨fun s => ⟨_, rfl, rfl, rfl, rfl, rfl⟩, fun s rest hs => ?_, fun i s t h hi => ?_⟩
  · exact ⟨({ s with input := rest } : State).applyReset, by simp [step, State.nextEvent, hs], rfl, rfl, rfl, rfl⟩
  · obtain ⟨he, hl, hc, hsi⟩ := (exec_cases h).stickyKept hi
    exact ⟨he, hl, hc, hsi, (exec_cases h).codeFlagged⟩

end Sys2Proof.Machine
end

section
/-! PROOFS. The status word (spec/10_state.md R17) and the reset values (R29). -/

namespace Sys2Proof.Machine

/-- The word 0x81 with any data is a write to ST (R40, R71). -/
theorem decode_write_st (c : Config) (d : Word) : decode c (.txn (0x81#8 ++ d)) = .ok (.wrRo .st) := by
  show decodeTxn c (1#1 ++ 1#7 ++ d) = _
  rw [decodeTxn, txnIndex_append, txnWrite_append]
  rfl

/-- ERR stands above the four bits 0, AM, RXV, TXV. -/
theorem Status.word_err (t : Status) : t.word.extractLsb' 4 3 = t.err := by
  show t.word.extractLsb' (1 + (1 + (1 + (1 + 0)))) 3 = _
  rw [Status.word, extract_skip, extract_skip, extract_skip, extract_skip, extract_low]

/-- The four bits above SI read 0. -/
theorem Status.word_high (t : Status) : t.word.extractLsb' 12 4 = 0 := by
  show t.word.extractLsb' (1 + (1 + (1 + (1 + (3 + (1 + (1 + (1 + (1 + (1 + 0)))))))))) 4 = _
  simp only [Status.word, extract_skip, extract_all]
  rfl

/-- Settles O20: the single bits by the widths of the appended fields, the two groups by word_err and word_high. -/
theorem statusRegisterLayout : Obligations.StatusRegisterLayout := by
  refine ⟨fun t => ?_, fun s d => ⟨decode_write_st s.cfg d, rfl⟩⟩
  rw [t.word_err, t.word_high]
  simp only [Status.word, BitVec.getLsbD_append]
  simp

/-- Settles O53: the reset state is closed, so its fields and reads are computed. -/
theorem resetIsAllZero : Obligations.ResetIsAllZero :=
  ⟨rfl, by decide, by decide, by decide, rfl, rfl⟩

end Sys2Proof.Machine
end

section
/-! PROOFS. The transaction decoder over the index map: every row of spec/30_encoding.md R71 in the numbers of
spec/20_memory.md R40, and no other index. -/

namespace Sys2Proof

/-! ### The decoder, by what the map says of the index -/

/-- A mapped index names a register: the word is its read or its write. -/
theorem decode_txn_of_regAt {c : Config} {w : TxnWord} {r : Reg} (h : regAt c (txnIndex w) = some r) :
    decode c (.txn w) = .ok (if txnWrite w then writeAt r (txnData w) else .rd r) := by
  simp only [decode, decodeTxn, h]

/-- R51: an unmapped index names no register, and the word is rejected under it. -/
theorem decode_txn_of_not_mapped {c : Config} {w : TxnWord} (h : ¬ Machine.Mapped c (txnIndex w).toNat) :
    decode c (.txn w) = .error (.unmappedIndex (txnIndex w)) := by
  have hn : regAt c (txnIndex w) = none :=
    Option.eq_none_iff_forall_ne_some.mpr fun r hr => h ((regAt_isSome_iff c _).mp ⟨r, hr⟩)
  simp only [decode, decodeTxn, hn]

/-- A write to a well-formed register is a well-formed instruction: `illegal` only ever takes a code from 6. -/
theorem writeAt_wf {c : Config} {r : Reg} (hr : r.wf c = true) (d : Word) : (writeAt r d).wf c = true := by
  cases r with
  | cmd => exact commandAt_wf c _
  | rxd => rfl
  | rw r => cases r <;> rfl
  | ro r => exact hr

/-- Settles O2: regAt_isSome_iff makes the map's domain R40's ranges, regAt_some its values well-formed registers. -/
theorem transactionDecoderIsTotal : Obligations.TransactionDecoderIsTotal := by
  refine fun c w hc => ⟨fun hm => ?_, decode_txn_of_not_mapped⟩
  obtain ⟨r, hr⟩ := (regAt_isSome_iff c (txnIndex w)).mpr hm
  have hwf : r.wf c = true := (regAt_some hc hr).2
  refine ⟨_, decode_txn_of_regAt hr, ?_⟩
  split
  · exact writeAt_wf hwf _
  · exact hwf

/-! ### The words of a register -/

theorem decode_read_of_regAt {c : Config} {idx : BitVec 7} {r : Reg} (h : regAt c idx = some r) (d : Word) :
    decode c (.txn (0#1 ++ idx ++ d)) = .ok (.rd r) := by
  rw [decode_txn_of_regAt (by rwa [txnIndex_append]), txnWrite_append]
  rfl

theorem decode_write_of_regAt {c : Config} {idx : BitVec 7} {r : Reg} (h : regAt c idx = some r) (d : Word) :
    decode c (.txn (1#1 ++ idx ++ d)) = .ok (writeAt r d) := by
  rw [decode_txn_of_regAt (by rwa [txnIndex_append]), txnWrite_append, txnData_append]
  rfl

/-- The rows with 24 ignored bits: a write that keeps only the data byte does not see them. -/
theorem decode_byteWord {c : Config} {h : Byte} {r : Reg} {f : Byte → Instr} (hr : regAt c (h.extractLsb' 0 7) = some r)
    (hw : h.getLsbD 7 = true) (hf : ∀ d, writeAt r d = f (dataByte d)) (x : BitVec 24) (b : Byte) :
    decode c (.txn (h ++ x ++ b)) = .ok (f b) := by
  rw [decode_txn_of_regAt (by rwa [txnIndex_byteWord]), txnWrite_byteWord, if_pos hw, hf, dataByte_byteWord]

theorem decode_read {c : Config} (hc : c.Admissible) {r : Reg} (hr : r.wf c = true) (d : Word) :
    decode c (.txn (0#1 ++ r.index ++ d)) = .ok (.rd r) :=
  decode_read_of_regAt (regAt_index c hc r hr) d

theorem decode_ignoredWrite {c : Config} (hc : c.Admissible) {r : ROReg} (hr : r.wf c = true) (d : Word) :
    decode c (.txn (1#1 ++ r.index ++ d)) = .ok (.wrRo r) :=
  decode_write_of_regAt (regAt_index c hc (.ro r) hr) d

/-! ### The words of R40's own numbers -/

/-- W, a buffer's block and a cell number make the first byte that is the block's base plus the cell number. -/
theorem base_add_cell (w : BitVec 1) (k : BitVec 3) (i : BitVec 4) :
    (w ++ k ++ 0#4 : BitVec 8) + i.setWidth 8 = w ++ (k ++ i : BitVec 7) := by
  revert w k i
  decide

theorem decode_read_cell {c : Config} (hc : c.Admissible) {k : BitVec 3} {i : BitVec 4} {r : ROReg}
    (hi : r.index = k ++ i) (hr : r.wf c = true) (d : Word) :
    decode c (.txn (((0#1 ++ k ++ 0#4 : BitVec 8) + i.setWidth 8) ++ d)) = .ok (.rd (.ro r)) := by
  rw [base_add_cell, ← hi]
  exact decode_read (r := .ro r) hc hr d

theorem decode_ignoredWrite_cell {c : Config} (hc : c.Admissible) {k : BitVec 3} {i : BitVec 4} {r : ROReg}
    (hi : r.index = k ++ i) (hr : r.wf c = true) (d : Word) :
    decode c (.txn (((1#1 ++ k ++ 0#4 : BitVec 8) + i.setWidth 8) ++ d)) = .ok (.wrRo r) := by
  rw [base_add_cell, ← hi]
  exact decode_ignoredWrite hc hr d

theorem readWordsOfTheMap {c : Config} (hc : c.Admissible) : Machine.ReadWordsOfTheMap c := by
  intro d
  have read (r : Reg) (hr : r.wf c = true) := decode_read hc hr d
  refine ⟨read .cmd rfl, read (.ro .st) rfl, read (.rw .opc) rfl, read (.rw .typ) rfl, read (.rw .mot) rfl,
    read (.rw .adr) rfl, read (.rw .vlo) rfl, read (.rw .vhi) rfl, read .rxd rfl, read (.ro .rxn) rfl,
    read (.ro .csum) rfl, read (.ro .dval) rfl, read (.ro .rval) rfl, fun i hi => ⟨?_, ?_⟩, fun i hi => ?_⟩
  · exact decode_read_cell hc (k := 1) (r := .txb i) rfl (decide_eq_true hi) d
  · exact decode_read_cell hc (k := 2) (r := .rxb i) rfl (decide_eq_true hi) d
  · exact decode_read_cell hc (k := 3) (r := .pay i) rfl (decide_eq_true hi) d

theorem ignoredWriteWordsOfTheMap {c : Config} (hc : c.Admissible) : Machine.IgnoredWriteWordsOfTheMap c := by
  intro d
  have write (r : ROReg) (hr : r.wf c = true) := decode_ignoredWrite hc hr d
  refine ⟨write .st rfl, write .rxn rfl, write .csum rfl, write .dval rfl, write .rval rfl,
    fun i hi => ⟨?_, ?_⟩, fun i hi => ?_⟩
  · exact decode_ignoredWrite_cell hc (k := 1) (r := .txb i) rfl (decide_eq_true hi) d
  · exact decode_ignoredWrite_cell hc (k := 2) (r := .rxb i) rfl (decide_eq_true hi) d
  · exact decode_ignoredWrite_cell hc (k := 3) (r := .pay i) rfl (decide_eq_true hi) d

/-- Settles O5: each row is the word of a register that the map finds at the row's index. The seven writes need no admissible P,
since their indices stand below the buffers. -/
theorem transactionRowsDecode : Obligations.TransactionRowsDecode := by
  intro c x b d
  refine ⟨?_, ?_, ?_, ?_, ?_, ?_, ?_, fun hc => ⟨readWordsOfTheMap hc, ignoredWriteWordsOfTheMap hc⟩,
    fun _ hc hr => decode_read hc hr d, fun _ hc hr => decode_ignoredWrite hc hr d⟩
  · exact decode_byteWord (r := .rxd) rfl rfl (fun _ => rfl) x b
  · exact decode_byteWord (r := .rw .opc) rfl rfl (fun _ => rfl) x b
  · exact decode_byteWord (r := .rw .typ) rfl rfl (fun _ => rfl) x b
  · exact decode_byteWord (r := .rw .mot) rfl rfl (fun _ => rfl) x b
  · exact decode_byteWord (r := .rw .adr) rfl rfl (fun _ => rfl) x b
  · exact decode_write_of_regAt (idx := 6) (r := .rw .vlo) rfl d
  · exact decode_write_of_regAt (idx := 7) (r := .rw .vhi) rfl d

end Sys2Proof
end

section
/-! PROOFS. What a step does with a transaction (spec/20_memory.md R47, R48, R51) and what an access leaves unchanged (R46,
R52). -/

namespace Sys2Proof.Machine

/-! ### One step -/

/-- Settles O56: the head of the program is fetched, and it decodes. -/
theorem stepRunsTheDecodedInstruction : Obligations.StepRunsTheDecodedInstruction := by
  intro s h rest i hs hd _
  simp only [step, State.nextEvent, hs, hd]

theorem step_of_decode_error {s : State} {h : HostWord} {rest : List HostEvent} {e : DecodeError}
    (hs : s.input = .word h :: rest) (hd : decode s.cfg h = .error e) : step s = .refused (refusalOf e) := by
  simp only [step, State.nextEvent, hs, hd]

/-- Settles O24: the decoder rejects an unmapped index, and step refuses what the decoder rejects. -/
theorem unmappedTransactionIsRefused : Obligations.UnmappedTransactionIsRefused := fun _ _ _ hs hm =>
  step_of_decode_error hs (decode_txn_of_not_mapped hm)

/-- Settles O57, by the three kinds of step; no instruction writes the configuration or the program. -/
theorem stepTakesOneEventInOrder : Obligations.StepTakesOneEventInOrder := by
  intro s t h
  rcases step_cases h with ⟨hs, rfl⟩ | ⟨rest, hs, rfl⟩ | ⟨w, rest, i, hs, -, hi⟩
  · exact ⟨rfl, by rw [hs]; rfl, fun _ => rfl⟩
  · exact ⟨rfl, by rw [hs]; rfl, fun h0 => by simp [hs] at h0⟩
  · obtain ⟨hcfg, hinput⟩ := exec_next_frame hi
    exact ⟨hcfg, by rw [hs]; exact hinput, fun h0 => by simp [hs] at h0⟩

/-! ### Reads and ignored writes -/

/-- A read completes exactly where the register exists, and then it answers the host and does nothing else. -/
theorem exec_rd_eq_next_iff {r : Reg} {s t : State} :
    exec (.rd r) s = .next t ↔ ∃ v, s.blk.read r = some v ∧ s.answer v = t := by
  cases hv : s.blk.read r <;> simp [exec, execRd, hv]

/-- Settles O22: the answer of a read leaves the block alone, so the same read finds the same word again. -/
theorem readsHaveNoSideEffect : Obligations.ReadsHaveNoSideEffect := by
  intro r s t h
  obtain ⟨v, hv, rfl⟩ := exec_rd_eq_next_iff.mp h
  exact ⟨rfl, rfl, rfl, exec_rd_eq_next_iff.mpr ⟨v, hv, rfl⟩⟩

/-- A write to a read-only register that exists changes nothing (R52). -/
theorem exec_wrRo_of_readRO {r : ROReg} {s : State} {v : Word} (h : s.blk.readRO r = some v) :
    exec (.wrRo r) s = .next (s.commit s.blk) := by
  simp only [exec, execWrRo, h]

/-- Settles O23: with the buffers at their sizes every well-formed read-only register exists. -/
theorem readOnlyWriteIsIgnored : Obligations.ReadOnlyWriteIsIgnored := by
  refine fun s h1 h2 h3 => ⟨ignoredWriteWordsOfTheMap, fun d => ⟨?_, ?_⟩, fun r hr => ?_, rfl, rfl⟩
  · exact decode_read_of_regAt (idx := 0) rfl d
  · exact decode_read_of_regAt (idx := 8) rfl d
  · obtain ⟨v, hv⟩ := Block.readRO_isSome h1 h2 h3 hr
    exact exec_wrRo_of_readRO hv

end Sys2Proof.Machine
end

section
/-! PROOFS. Decode and encode of the host's words (spec/30_encoding.md R60 to R63, R69 to R71), and the rows of the opcode table
they lie in. -/

namespace Sys2Proof

/-! ### The words of the transaction instructions -/

theorem dataByte_setWidth (b : Byte) : dataByte (b.setWidth 32) = b := Machine.busWord_byte b

/-- A byte written to a register that keeps only the data byte arrives as that byte. -/
theorem decode_writeByteWord {c : Config} {idx : BitVec 7} {r : Reg} {f : Byte → Instr} (hr : regAt c idx = some r)
    (hf : ∀ d, writeAt r d = f (dataByte d)) (b : Byte) : decode c (writeByteWord idx b) = .ok (f b) := by
  rw [writeByteWord, writeWord, decode_write_of_regAt hr, hf, dataByte_setWidth]

/-- A write to CMD is the operation of its code (R70). -/
theorem decode_commandByte (c : Config) (code : Byte) : decode c (writeByteWord 0x00 code) = .ok (commandAt code) :=
  decode_writeByteWord (r := .cmd) rfl (fun _ => rfl) code

/-! ### The words of the wire frames -/

/-- The encoder's two computed bytes are the ones R60 asks for, and its fields are read back from R60's positions. -/
theorem decodeCommand_commandWord (o t m : Byte) (v : Word) (a : Byte) :
    decodeCommand (commandWord o t m v a) = .ok (.frameCmd o t m v a) := by
  simp -index only [decodeCommand, isCommandFrame, commandFields, commandWord, BitVec.extractLsb'_append_eq_of_le,
    BitVec.extractLsb'_append_eq_of_add_le, BitVec.extractLsb'_eq_self, Nat.reduceSub, Nat.reduceAdd, Nat.reduceLeDiff,
    le_refl, and_self, decide_true, if_true]

/-- The fields of a reply frame are read back from R61's positions. -/
theorem decodeReply_append (s a : Byte) (v : Word) (x0 x1 x2 k : Byte) :
    decodeReply (s ++ a ++ v ++ x0 ++ x1 ++ x2 ++ k) = .frameReply s a v x0 x1 x2 k := by
  simp -index only [decodeReply, BitVec.extractLsb'_append_eq_of_le, BitVec.extractLsb'_append_eq_of_add_le,
    BitVec.extractLsb'_eq_self, Nat.reduceSub, Nat.reduceAdd, Nat.reduceLeDiff, le_refl]

/-- Settles O1, by the row: the index map finds the register a transaction word names, and the appended fields of a frame are
read back where they were put. -/
theorem decodeOfEncodeIsIdentity : Obligations.DecodeOfEncodeIsIdentity := by
  intro c i hc hi
  cases i with
  | nop => exact decode_commandByte c 0
  | enc => exact decode_commandByte c 1
  | dec => exact decode_commandByte c 2
  | vfy => exact decode_commandByte c 3
  | rxc => exact decode_commandByte c 4
  | cle => exact decode_commandByte c 5
  | illegal code => exact (decode_commandByte c code).trans (by rw [commandAt_illegal (of_decide_eq_true hi)])
  | push b => exact decode_writeByteWord (r := .rxd) rfl (fun _ => rfl) b
  | wrOpc d => exact decode_writeByteWord (r := .rw .opc) rfl (fun _ => rfl) d
  | wrTyp d => exact decode_writeByteWord (r := .rw .typ) rfl (fun _ => rfl) d
  | wrMot d => exact decode_writeByteWord (r := .rw .mot) rfl (fun _ => rfl) d
  | wrAdr d => exact decode_writeByteWord (r := .rw .adr) rfl (fun _ => rfl) d
  | wrVlo d => exact decode_write_of_regAt (r := .rw .vlo) rfl d
  | wrVhi d => exact decode_write_of_regAt (r := .rw .vhi) rfl d
  | wrRo r => exact decode_ignoredWrite hc hi 0
  | rd r => exact decode_read hc hi 0
  | frameCmd o t m v a => exact decodeCommand_commandWord o t m v a
  | frameReply s a v x0 x1 x2 k => exact congrArg Except.ok (decodeReply_append s a v x0 x1 x2 k)

/-- Settles O4: the row of CMD ignores 24 bits, and its code selects the operation. -/
theorem commandCodeSelectsOperation : Obligations.CommandCodeSelectsOperation := by
  intro c hi code
  have h : decode c (.txn (0x80#8 ++ hi ++ code)) = .ok (commandAt code) :=
    decode_byteWord (r := .cmd) rfl rfl (fun _ => rfl) hi code
  rw [h]
  refine ⟨?_, ?_, ?_, ?_, ?_, ?_, fun h6 => by rw [commandAt_illegal h6]⟩ <;> (rintro rfl; rfl)

/-! ### The rows of the opcode table -/

/-- A transaction word is its three fields (R69). -/
theorem txn_fields (w : TxnWord) : BitVec.ofBool (txnWrite w) ++ txnIndex w ++ txnData w = w := by
  have hW : BitVec.ofBool (txnWrite w) = w.extractLsb' 39 1 := by
    apply BitVec.eq_of_getLsbD_eq
    intro i hi
    obtain rfl : i = 0 := by omega
    simp [txnWrite]
  have h : w.extractLsb' 39 1 ++ txnIndex w = w.extractLsb' 32 8 :=
    BitVec.extractLsb'_append_extractLsb'_eq_extractLsb' rfl
  rw [hW, h]
  exact BitVec.extractLsb'_append_extractLsb'

/-- A row of CMD: what a written word keeps under a mask of W, IDX and DATA[7:0]. -/
theorem commandWord_row (d : Word) :
    (1#1 ++ 0#7 ++ d : TxnWord) &&& (0xFF#8 ++ (0#24 ++ 0xFF#8)) = (1#1 ++ 0#7) ++ (0#24 ++ dataByte d) := by
  have hd : d.extractLsb' 8 24 ++ dataByte d = d := BitVec.extractLsb'_append_extractLsb'
  conv_lhs => rw [← hd]
  rw [Laws.and_append, Laws.and_append, show (0xFF#8 : BitVec 8) = BitVec.allOnes 8 from rfl, BitVec.and_allOnes,
    BitVec.and_allOnes, BitVec.and_zero]

/-- A write to CMD lies in the row of its code (R70): with one of the six codes the mask covers the code too. -/
theorem matchesRow_commandAt (d : Word) : matchesRow (commandAt (dataByte d)) (writeWord 0x00 d) = true := by
  by_cases h : 6 ≤ (dataByte d).toNat
  · rw [commandAt_illegal h]
    exact decide_eq_true (Laws.writeWord_row _ _)
  · have hd := commandWord_row d
    have hb : dataByte d = BitVec.ofNat 8 (dataByte d).toNat := by simp
    generalize dataByte d = b at *
    generalize b.toNat = n at *
    subst hb
    interval_cases n <;> exact decide_eq_true hd

/-- A write lies in its register's row (R70, R71). -/
theorem matchesRow_writeAt (r : Reg) (d : Word) : matchesRow (writeAt r d) (writeWord r.index d) = true := by
  cases r with
  | cmd => exact matchesRow_commandAt d
  | rxd => exact decide_eq_true (Laws.writeWord_row _ _)
  | rw r => cases r <;> exact decide_eq_true (Laws.writeWord_row _ _)
  | ro r => exact decide_eq_true (Laws.rowW 1#1 _ _)

/-- A read's row fixes W, a write's is its register's. -/
theorem matchesRow_txn {w : TxnWord} {r : Reg} (h : r.index = txnIndex w) :
    matchesRow (if txnWrite w then writeAt r (txnData w) else .rd r) (.txn w) = true := by
  have hw := txn_fields w
  rw [← h] at hw
  cases hW : txnWrite w with
  | true =>
    rw [hW] at hw
    exact (congrArg (fun u => matchesRow _ (.txn u)) hw).symm.trans (matchesRow_writeAt r (txnData w))
  | false =>
    rw [hW] at hw
    exact decide_eq_true (hw ▸ Laws.rowW 0#1 r.index (txnData w))

/-- A command frame has the reserved byte of its row (R60). -/
theorem matchesRow_commandFields {w : FrameWord} (h : isCommandFrame w = true) :
    matchesRow (commandFields w) (.command w) = true := by
  have hr : w.extractLsb' 8 8 = 0#8 := (of_decide_eq_true h).1
  have hw : w.extractLsb' 16 64 ++ 0#8 ++ w.extractLsb' 0 8 = w := by
    rw [← hr, BitVec.extractLsb'_append_extractLsb'_eq_extractLsb' (by rfl)]
    exact BitVec.extractLsb'_append_extractLsb'
  apply decide_eq_true
  rw [← hw]
  show _ &&& (0#64 ++ 0xFF#8 ++ 0#8) = 0#64 ++ 0#8 ++ 0#8
  rw [Laws.and_append, Laws.and_append]
  simp

/-- Settles O3, by the three kinds of host word. -/
theorem decodedWordLiesInItsTableRow : Obligations.DecodedWordLiesInItsTableRow := by
  intro c h i hc hd
  cases h with
  | txn w =>
    cases hr : regAt c (txnIndex w) with
    | none => simp [decode, decodeTxn, hr] at hd
    | some r =>
      rw [decode_txn_of_regAt hr] at hd
      obtain ⟨hidx, hwf⟩ := regAt_some hc hr
      obtain rfl := Except.ok.inj hd
      refine ⟨matchesRow_txn hidx, ?_⟩
      split
      · exact writeAt_wf hwf _
      · exact hwf
  | command w =>
    by_cases hw : isCommandFrame w
    · obtain rfl : commandFields w = i := by simpa [decode, decodeCommand, hw] using hd
      exact ⟨matchesRow_commandFields hw, rfl⟩
    · simp [decode, decodeCommand, hw] at hd
  | reply w =>
    obtain rfl := Except.ok.inj hd
    exact ⟨rfl, rfl⟩

/-- Settles O6: the words are written out, so decoding them is a computation. -/
theorem wordsOfTheSpecDecode : Obligations.WordsOfTheSpecDecode := by
  unfold Obligations.WordsOfTheSpecDecode
  decide

end Sys2Proof

namespace Sys2Proof.Codec

/-! ### Bytes of a sequence and of the value field -/

/-- A byte that stands before the cut is kept. -/
theorem byteAt_take {l : List Byte} {i n : Nat} (h : i < n) : byteAt (l.take n) i = byteAt l i := by
  simp [byteAt, List.getD_eq_getElem?_getD, h]

theorem toNat_append {m n : Nat} (a : BitVec m) (b : BitVec n) : (a ++ b).toNat = a.toNat * 2 ^ n + b.toNat := by
  rw [BitVec.toNat_append, ← Nat.shiftLeft_add_eq_or_of_lt b.isLt, Nat.shiftLeft_eq]

/-- Four bytes put together are taken apart again (R62, R63). -/
theorem valueBytes_wordOf (b0 b1 b2 b3 : Byte) : valueBytes (wordOf b0 b1 b2 b3) = [b0, b1, b2, b3] := by
  simp -index only [valueBytes, wordOf, BitVec.extractLsb'_append_eq_of_le, BitVec.extractLsb'_append_eq_of_add_le,
    BitVec.extractLsb'_eq_self, Nat.reduceSub, Nat.reduceAdd, Nat.reduceLeDiff, le_refl]

/-- Settles O15: the bytes of a pattern determine it, and in range the pattern determines the value. -/
theorem valueBytesAreInverse : Obligations.ValueBytesAreInverse := by
  refine ⟨fun b0 b1 b2 b3 => ⟨?_, valueBytes_wordOf b0 b1 b2 b3⟩, fun v h1 h2 => ⟨_, _, _, _, rfl, ?_⟩⟩
  · rw [wordOf, toNat_append, toNat_append, toNat_append]
    omega
  · rw [wordOf_valueBytes, toInt_ofInt_of_range h1 h2]

end Sys2Proof.Codec
end

section
/-! PROOFS. The wire frames as the sequences of spec/30_encoding.md R74, and DEC's verdict on a pushed sequence
(spec/42_decode.md R101, R107). -/

namespace Sys2Proof.Machine

/-! ### FRAME.CMD: `ldf` and `enc` -/

/-- The upper half of a sign-extended value repeats its sign. -/
theorem valueHigh_toInt_eq_ite (v : Word) : valueHigh v.toInt = if v.msb then 0xFFFFFFFF else 0 := by
  rw [valueHigh_toInt, BitVec.signExtend_eq_append_of_le (by decide)]
  exact extract_skip (if v.msb then BitVec.allOnes 32 else 0#32) v 0 32 |>.trans (extract_all _)

/-- The transactions of R74's `ldf o, t, m, v, a` and `enc`, as one. -/
theorem execList_ldf_enc (s : State) (o t m : Byte) (v : Int) (a : Byte) :
    execList [.wrOpc o, .wrTyp t, .wrMot m, .wrVlo (valueLow v), .wrVhi (valueHigh v), .wrAdr a, .enc] s =
      .next (s.commit (s.blk.sendFrame s.cfg o t m v a)) := rfl

/-- Settles O41: the two halves that `ldf` writes for a 32-bit value are its pattern and its sign. -/
theorem frameCmdIsLoadThenEncode : Obligations.FrameCmdIsLoadThenEncode := by
  intro s o t m v a
  have h := execList_ldf_enc s o t m v.toInt a
  rw [valueLow_toInt, valueHigh_toInt_eq_ite] at h
  exact h.symm

theorem wireBytes_eq (w : FrameWord) : wireBytes w =
    [w.extractLsb' 72 8, w.extractLsb' 64 8, w.extractLsb' 56 8, w.extractLsb' 48 8, w.extractLsb' 40 8,
      w.extractLsb' 32 8, w.extractLsb' 24 8, w.extractLsb' 16 8, w.extractLsb' 8 8, w.extractLsb' 0 8] := rfl

/-- The wire bytes of an encoded command frame are Encode's (R60, R90). -/
theorem wireBytes_commandWord (o t m : Byte) (v : Word) (a : Byte) :
    wireBytes (commandWord o t m v a) = Codec.payload Config.hardware o t m v a ++
      [Codec.checksum (Codec.payload Config.hardware o t m v a)] := by
  simp -index only [wireBytes_eq, commandWord, BitVec.extractLsb'_append_eq_of_le, BitVec.extractLsb'_append_eq_of_add_le,
    BitVec.extractLsb'_eq_self, Nat.reduceSub, Nat.reduceAdd, Nat.reduceLeDiff, le_refl]
  rfl

/-- Settles O42: a 32-bit value is in range, and at P = 9 Encode's frame is the word's bytes. -/
theorem frameCmdPutsItsWordInTheTransmitBuffer : Obligations.FrameCmdPutsItsWordInTheTransmitBuffer := by
  rintro ⟨_, b, input, response⟩ o t m v a rfl
  refine ⟨_, rfl, ?_⟩
  have hf := encode_word Config.hardware o t m v a
  rw [← wireBytes_commandWord] at hf
  show Host.Outcome.next (State.commit ⟨_, b, input, response⟩ (b.sendFrame Config.hardware o t m v.toInt a)) = _
  rw [Block.sendFrame_eq _ _ _ _ _ _ _ hf]
  rfl

/-! ### DEC on a pushed sequence -/

theorem frameLen_lt_of_admissible {c : Config} (hc : c.Admissible) : c.frameLen < 255 :=
  Nat.lt_of_le_of_lt (Nat.succ_le_succ hc.2) (by decide)

/-- A sequence of F bytes fills the buffer. -/
theorem Block.rxc_pushAll_full {c : Config} (hc : c.frameLen < 255) {b : Block} {ds : List Byte}
    (hb : b.rxb.length = c.frameLen) (hd : ds.length = c.frameLen) :
    b.rxc.pushAll c ds = { b with rxn := BitVec.ofNat 8 c.frameLen, rxb := ds } := by
  rw [Block.rxc_pushAll c hc.le b ds hb, hd, List.take_of_length_le hd.le, List.drop_of_length_le hb.le, List.append_nil,
    Nat.min_eq_left hc.le]

/-- RXC, the pushes of any sequence and DEC end in one of three ways, and Decode of the sequence says in which. -/
theorem Block.receive_cases {c : Config} (hc : c.frameLen < 255) {b : Block} (ds : List Byte)
    (hb : b.rxb.length = c.frameLen) :
    (ds.length ≠ c.frameLen ∧ ∃ x y, b.receive c ds = { b with
      rxn := x, rxb := y, st := { b.st with err := 2, sl := true, rxv := false, am := false } }) ∨
    (Codec.decode c ds = .error .checksumError ∧ b.receive c ds = { b with
      rxn := BitVec.ofNat 8 c.frameLen, rxb := ds, csum := Codec.checksum (ds.take c.payloadLen)
      st := { b.st with err := 3, sc := true, rxv := false, am := false } }) ∨
    (Codec.decode c ds = .ok (ds.take c.payloadLen) ∧ b.receive c ds = { b with
      rxn := BitVec.ofNat 8 c.frameLen, rxb := ds, csum := Codec.checksum (ds.take c.payloadLen)
      pay := ds.take c.payloadLen
      st := { b.st with err := 0, rxv := true, am := Codec.byteAt ds 1 = b.adr } }) := by
  unfold Block.receive
  by_cases hd : ds.length = c.frameLen
  · have hn : (BitVec.ofNat 8 c.frameLen).toNat = c.frameLen := Nat.mod_eq_of_lt (by omega)
    rw [Block.rxc_pushAll_full hc hb hd]
    rcases Block.dec_cases c { b with rxn := BitVec.ofNat 8 c.frameLen, rxb := ds } with ⟨h, -⟩ | ⟨-, h, e⟩ | ⟨-, h, e⟩
    · exact absurd hn h
    · exact .inr (.inl ⟨Codec.decode_checksum_iff.mpr ⟨hd, h⟩, e⟩)
    · exact .inr (.inr ⟨Codec.decode_ok_iff.mpr ⟨hd, h, rfl⟩, e⟩)
  · have hn : (b.rxc.pushAll c ds).rxn.toNat ≠ c.frameLen := by
      rw [Block.rxc_pushAll c hc.le b ds hb]
      simp only [BitVec.toNat_ofNat]
      omega
    obtain ⟨x, y, e, -⟩ := Block.pushAll_frame c b.rxc ds
    rcases Block.dec_cases c (b.rxc.pushAll c ds) with ⟨-, h⟩ | ⟨h, -⟩ | ⟨h, -⟩
    · exact .inl ⟨hd, x, y, by rw [h, e]; rfl⟩
    · exact absurd h hn
    · exact absurd h hn

/-- The transactions of R74's `rxc`, `pushf bytes` and `dec`, as one. -/
theorem execList_rxc_push_dec (s : State) (bytes : List Byte) :
    execList (.rxc :: bytes.map .push ++ [.dec]) s = .next (s.commit (s.blk.receive s.cfg bytes)) :=
  execList_rxc_push s bytes [.dec]

/-- Settles O36, by Decode's verdict on the sequence. -/
theorem receivingASequenceDecodesIt : Obligations.ReceivingASequenceDecodesIt := by
  intro s bytes hc hb
  refine ⟨_, execList_rxc_push_dec s bytes, ?_⟩
  have h1 : 1 < s.cfg.payloadLen := by omega
  rcases Block.receive_cases (frameLen_lt_of_admissible hc) bytes hb with ⟨hl, x, y, e⟩ | ⟨hd, e⟩ | ⟨hd, e⟩
  · simp [Codec.decode_length hl, e, errorCode]
  · simp [hd, e, errorCode]
  · simp [hd, e, Codec.byteAt_take h1]

/-! ### FRAME.REPLY: `rxc`, ten pushes and `dec` -/

/-- Settles O43: the ten bytes in wire order are pushed between RXC and DEC. -/
theorem frameReplyIsReceiveThenDecode : Obligations.FrameReplyIsReceiveThenDecode :=
  fun s st a v x0 x1 x2 k => (execList_rxc_push_dec s (replyBytes st a v x0 x1 x2 k)).symm

/-- The wire bytes of a reply frame are the bytes FRAME.REPLY pushes (R61). -/
theorem wireBytes_replyWord (st a : Byte) (v : Word) (x0 x1 x2 k : Byte) :
    wireBytes (st ++ a ++ v ++ x0 ++ x1 ++ x2 ++ k) = replyBytes st a v x0 x1 x2 k := by
  simp -index only [wireBytes_eq, BitVec.extractLsb'_append_eq_of_le, BitVec.extractLsb'_append_eq_of_add_le,
    BitVec.extractLsb'_eq_self, Nat.reduceSub, Nat.reduceAdd, Nat.reduceLeDiff, le_refl]
  rfl

/-- The Reply view's value of a reply frame's payload is the frame's value (R63, R103). -/
theorem replyValue_replyBytes (st a : Byte) (v : Word) (x0 x1 x2 k : Byte) :
    Codec.replyValue ((replyBytes st a v x0 x1 x2 k).take 9) = v := Codec.wordOf_valueBytes v

theorem replyView_replyBytes (st a : Byte) (v : Word) (x0 x1 x2 k : Byte) :
    Codec.replyView ((replyBytes st a v x0 x1 x2 k).take 9) = ⟨st, a, v.toInt, [x0, x1, x2]⟩ := by
  rw [Codec.replyView, replyValue_replyBytes]
  rfl

/-- Settles O44: ten bytes are a whole frame at P = 9, so DEC's two endings are those of the checksum test. -/
theorem frameReplyIsValidatedAndShown : Obligations.FrameReplyIsValidatedAndShown := by
  rintro ⟨_, b, input, response⟩ st a v x0 x1 x2 k rfl hb
  refine ⟨State.commit _ (b.receive Config.hardware (replyBytes st a v x0 x1 x2 k)), rfl, ?_⟩
  rw [wireBytes_replyWord]
  rcases Block.receive_cases (c := Config.hardware) (by decide) (replyBytes st a v x0 x1 x2 k) hb with
    ⟨hl, -⟩ | ⟨hd, e⟩ | ⟨hd, e⟩
  · exact absurd rfl hl
  · obtain ⟨-, hk⟩ := Codec.decode_checksum_iff.mp hd
    rw [e]
    exact ⟨rfl, rfl, rfl, fun h => absurd h.symm hk, fun _ => ⟨rfl, rfl⟩, rfl, rfl, rfl, rfl, rfl, rfl, rfl⟩
  · obtain ⟨-, hk, -⟩ := Codec.decode_ok_iff.mp hd
    rw [e]
    exact ⟨rfl, rfl, rfl, fun _ => ⟨replyView_replyBytes st a v x0 x1 x2 k, replyValue_replyBytes st a v x0 x1 x2 k, rfl⟩,
      fun h => absurd hk.symm h, rfl, rfl, rfl, rfl, rfl, rfl, rfl⟩

end Sys2Proof.Machine
end

section
/-! PROOFS. The checksum as a sum of bytes, and what it does and does not detect (spec/40_checksum.md R80 to R83). -/

namespace Sys2Proof.Codec

/-! ### The checksum is the 8-bit sum of the bytes -/

theorem checksum_toNat (b : List Byte) : (checksum b).toNat = (b.map BitVec.toNat).sum % 256 :=
  BitVec.toNat_ofNat _ _

theorem checksum_eq_sum (b : List Byte) : checksum b = b.sum := by
  induction b with
  | nil => rfl
  | cons x b ih => rw [checksum_cons, ih, List.sum_cons]

/-- Wire order does not matter to the checksum (R81 (c)). -/
theorem checksum_perm {b b' : List Byte} (h : b.Perm b') : checksum b = checksum b' := by
  rw [checksum_eq_sum, checksum_eq_sum, h.sum_eq]

/-- A byte is at most 255, so n of them sum to at most n * 255. -/
theorem sum_toNat_le (b : List Byte) : (b.map BitVec.toNat).sum ≤ b.length * 255 := by
  have hbyte : ∀ n ∈ b.map BitVec.toNat, n ≤ 255 := by
    intro n hn
    obtain ⟨x, -, rfl⟩ := List.mem_map.mp hn
    exact Nat.le_of_lt_succ x.isLt
  simpa using List.sum_le_card_nsmul _ 255 hbyte

/-- The sum over a whole frame counts the checksum byte beside the payload's checksum. -/
theorem checksum_frame {c : Config} {f : List Byte} (h : f.length = c.frameLen) :
    checksum f = checksum (f.take c.payloadLen) + byteAt f c.payloadLen := by
  conv_lhs => rw [eq_take_append_byteAt h, checksum_append, checksum_eq_sum [_], List.sum_singleton]

/-- Settles O8: the checksum is a sum, and on a frame it is the payload's checksum plus the byte compared with it. -/
theorem checksumLaws : Obligations.ChecksumLaws := by
  refine ⟨fun b h => ?_, fun b => ?_, fun _ _ => checksum_perm, checksum_append, fun c f h => ?_⟩
  · simpa [h] using sum_toNat_le b
  · rw [checksum_eq_sum, List.sum_eq_foldl]
  · have hdiff : checksum f - 2 * byteAt f c.payloadLen = checksum (f.take c.payloadLen) - byteAt f c.payloadLen := by
      rw [checksum_frame h]
      ring
    rw [hdiff, sub_eq_zero, eq_comm]

/-- Settles O7: an encoded frame is its payload of P bytes followed by the payload's checksum. -/
theorem checksumIsByteSumModulo256 : Obligations.ChecksumIsByteSumModulo256 := by
  refine ⟨checksum_toNat, checksum_nil, fun c o t m v a f hc hf => ?_⟩
  obtain ⟨-, -, rfl⟩ := encode_ok_iff.mp hf
  have hp := payload_length c o t m (BitVec.ofInt 32 v) a hc.1
  rw [List.take_left' hp, ← hp, List.getElem?_concat_length]

/-! ### Validate on a payload and a checksum byte -/

theorem byteAt_append_left {p : List Byte} {i : Nat} (h : i < p.length) (q : List Byte) :
    byteAt (p ++ q) i = byteAt p i :=
  List.getD_append _ _ _ _ h

theorem byteAt_append_length (p : List Byte) (k : Byte) : byteAt (p ++ [k]) p.length = k := by
  simp [byteAt]

theorem byteAt_set_ne {p : List Byte} {i j : Nat} (h : i ≠ j) (x : Byte) : byteAt (p.set i x) j = byteAt p j := by
  simp [byteAt, List.getD_eq_getElem?_getD, h]

theorem validate_append_ok_iff {c : Config} {p : List Byte} {k : Byte} (hp : p.length = c.payloadLen) :
    validate c (p ++ [k]) = .ok k ↔ checksum p = k := by
  rw [validate_ok_iff, List.take_left' hp, ← hp, byteAt_append_length]
  simp [hp, Config.frameLen]

theorem validate_append_checksum_iff {c : Config} {p : List Byte} {k : Byte} (hp : p.length = c.payloadLen) :
    validate c (p ++ [k]) = .error .checksumError ↔ checksum p ≠ k := by
  rw [validate_checksum_iff, List.take_left' hp, ← hp, byteAt_append_length]
  simp [hp, Config.frameLen]

/-- A valid frame is a payload of P bytes and the payload's checksum. -/
theorem validate_ok_append {c : Config} {f : List Byte} {k : Byte} (h : validate c f = .ok k) :
    ∃ p, f = p ++ [k] ∧ p.length = c.payloadLen ∧ checksum p = k := by
  obtain ⟨hl, hk, hb⟩ := validate_ok_iff.mp h
  have hp : (f.take c.payloadLen).length = c.payloadLen := by simp [hl, Config.frameLen]
  exact ⟨f.take c.payloadLen, hb ▸ eq_take_append_byteAt hl, hp, hk⟩

/-- Settles O11: the length test decides alone, and on F bytes the two verdicts are those of the checksum test. -/
theorem validateTestsLengthThenChecksum : Obligations.ValidateTestsLengthThenChecksum := by
  refine fun c b => ⟨validate_length, ?_, ?_⟩
  · rintro p k hp rfl hk
    exact (validate_append_checksum_iff hp).mpr hk
  · rintro p k hp rfl hk
    exact (validate_append_ok_iff hp).mpr hk

/-! ### Which changes of a valid frame are detected -/

theorem set_append_length (p : List Byte) (k x : Byte) : (p ++ [k]).set p.length x = p ++ [x] := by
  simp

/-- Settles O9: a changed payload byte moves the computed checksum, a changed checksum byte the one it is compared with. -/
theorem singleSubstitutionInvalidates : Obligations.SingleSubstitutionInvalidates := by
  intro c f k i x hf hi hx
  obtain ⟨p, rfl, hp, rfl⟩ := validate_ok_append hf
  rcases Nat.lt_succ_iff_lt_or_eq.mp hi with hlt | rfl
  · rw [← hp] at hlt
    rw [byteAt_append_left hlt] at hx
    rw [List.set_append_left _ _ hlt, validate_append_checksum_iff (by rw [List.length_set, hp]), checksum_set p i x hlt]
    intro h
    exact hx (by linear_combination h)
  · rw [← hp, byteAt_append_length] at hx
    rw [← hp, set_append_length, validate_append_checksum_iff hp]
    exact hx.symm

/-- Settles O10: the changes of the payload sum to that of the checksum byte, which is all the test can see. -/
theorem compensatingChangesAreNotDetected : Obligations.CompensatingChangesAreNotDetected := by
  refine fun c => ⟨?_, ?_, ?_, ?_⟩
  · intro f k d i j hf hi hj hij
    obtain ⟨p, rfl, hp, rfl⟩ := validate_ok_append hf
    rw [← hp] at hi hj
    have hj' : j < (p.set i (byteAt p i + d)).length := by rwa [List.length_set]
    rw [byteAt_append_left hi, byteAt_append_left hj, List.set_append_left _ _ hi, List.set_append_left _ _ hj',
      validate_append_ok_iff (by simp [hp]), checksum_set _ _ _ hj', checksum_set _ _ _ hi, byteAt_set_ne hij]
    ring
  · intro f k d i hf hi
    obtain ⟨p, rfl, hp, rfl⟩ := validate_ok_append hf
    rw [← hp] at hi
    have hl : (p.set i (byteAt p i + d)).length = c.payloadLen := by rw [List.length_set, hp]
    rw [byteAt_append_left hi, List.set_append_left _ _ hi, ← hl, set_append_length, validate_append_ok_iff hl,
      checksum_set _ _ _ hi]
    ring
  · intro f p k hf hperm
    obtain ⟨hl, hk, -⟩ := validate_ok_iff.mp hf
    have hp : p.length = c.payloadLen := by simp [hperm.length_eq, hl, Config.frameLen]
    rw [validate_append_ok_iff hp, checksum_perm hperm, hk]
  · rw [Config.frameLen, List.replicate_succ', validate_append_ok_iff List.length_replicate, checksum_replicate_zero]

end Sys2Proof.Codec
end

section
/-! PROOFS. VFY and its repetition, and DEC after it (spec/40_checksum.md R84, spec/42_decode.md R107). -/

namespace Sys2Proof.Machine

/-! ### Each ending from its condition -/

theorem Block.vfy_of_length {c : Config} {b : Block} (h : b.rxn.toNat ≠ c.frameLen) :
    b.vfy c = { b with st := { b.st with err := 2, sl := true } } := by
  simp [Block.vfy, h, Block.raise, Status.fail, errorCode]

theorem Block.vfy_of_checksum {c : Config} {b : Block} (h : b.rxn.toNat = c.frameLen)
    (hk : b.computed c ≠ Codec.byteAt b.rxb c.payloadLen) :
    b.vfy c = { b with csum := b.computed c, st := { b.st with err := 3, sc := true } } := by
  simp [Block.vfy, h, hk, Block.raise, Status.fail, errorCode]

theorem Block.vfy_of_valid {c : Config} {b : Block} (h : b.rxn.toNat = c.frameLen)
    (hk : b.computed c = Codec.byteAt b.rxb c.payloadLen) :
    b.vfy c = { b with csum := b.computed c, st := { b.st with err := 0 } } := by
  simp [Block.vfy, h, hk, Status.succeed]

theorem Block.dec_of_length {c : Config} {b : Block} (h : b.rxn.toNat ≠ c.frameLen) :
    b.dec c = { b with st := { b.st with err := 2, sl := true, rxv := false, am := false } } := by
  simp [Block.dec, h, Block.raise, Status.fail, errorCode]

theorem Block.dec_of_checksum {c : Config} {b : Block} (h : b.rxn.toNat = c.frameLen)
    (hk : b.computed c ≠ Codec.byteAt b.rxb c.payloadLen) :
    b.dec c = { b with
      csum := b.computed c, st := { b.st with err := 3, sc := true, rxv := false, am := false } } := by
  simp [Block.dec, h, hk, Block.raise, Status.fail, errorCode]

theorem Block.dec_of_valid {c : Config} {b : Block} (h : b.rxn.toNat = c.frameLen)
    (hk : b.computed c = Codec.byteAt b.rxb c.payloadLen) :
    b.dec c = { b with
      csum := b.computed c, pay := b.rxb.take c.payloadLen
      st := { b.st with err := 0, rxv := true, am := Codec.byteAt b.rxb 1 = b.adr } } := by
  simp [Block.dec, h, hk, Status.succeed]

/-! ### VFY and DEC leave what they judge -/

/-- A second VFY meets the same two tests and writes the same fields again. -/
theorem Block.vfy_vfy (c : Config) (b : Block) : (b.vfy c).vfy c = b.vfy c := by
  rcases Block.vfy_cases c b with ⟨hn, e⟩ | ⟨hn, hk, e⟩ | ⟨hn, hk, e⟩ <;> rw [e]
  · exact Block.vfy_of_length hn
  · exact Block.vfy_of_checksum hn hk
  · exact Block.vfy_of_valid hn hk

theorem Block.dec_dec (c : Config) (b : Block) : (b.dec c).dec c = b.dec c := by
  rcases Block.dec_cases c b with ⟨hn, e⟩ | ⟨hn, hk, e⟩ | ⟨hn, hk, e⟩ <;> rw [e]
  · exact Block.dec_of_length hn
  · exact Block.dec_of_checksum hn hk
  · exact Block.dec_of_valid hn hk

/-- VFY writes nothing that the two tests read. -/
theorem Block.vfy_judged (c : Config) (b : Block) :
    (b.vfy c).rxn = b.rxn ∧ (b.vfy c).computed c = b.computed c ∧ (b.vfy c).accepts c = b.accepts c := by
  obtain ⟨_, _, _, _, e⟩ := Block.vfy_frame c b
  rw [e]
  exact ⟨rfl, rfl, rfl⟩

/-- DEC after VFY meets the same two tests, so it ends with the same code and the same checksum. -/
theorem Block.dec_vfy (c : Config) (b : Block) :
    ((b.vfy c).dec c).st.err = (b.vfy c).st.err ∧ ((b.vfy c).dec c).csum = (b.vfy c).csum := by
  obtain ⟨hn, hk, ha⟩ := Block.vfy_judged c b
  constructor
  · rw [Block.dec_err, Block.vfy_err, ha, hn]
  · rw [Block.dec_csum, Block.vfy_csum, hn, hk]
    split <;> rfl

/-! ### The instructions -/

theorem exec_vfy (s : State) : exec .vfy s = .next (s.commit (s.blk.vfy s.cfg)) := rfl

theorem exec_dec (s : State) : exec .dec s = .next (s.commit (s.blk.dec s.cfg)) := rfl

/-- The later of two writes of the block is the one that stands. -/
@[simp] theorem State.commit_commit (s : State) (b b' : Block) : (s.commit b).commit b' = s.commit b' := rfl

/-- Settles O39: neither operation writes the received bytes or their number, which both judge. -/
theorem vfyAndDecAgreeAndRepeat : Obligations.VfyAndDecAgreeAndRepeat := by
  intro s
  obtain ⟨herr, hcsum⟩ := Block.dec_vfy s.cfg s.blk
  refine ⟨_, _, exec_vfy s, exec_dec _, herr, hcsum, ?_, ?_⟩
  · simp [exec_vfy, Block.vfy_vfy]
  · simp [exec_dec, Block.dec_dec]

/-- Settles O34: the three endings are VFY's by its two tests, and the repetitions are those of O39. -/
theorem vfyValidatesOnly : Obligations.VfyValidatesOnly := by
  intro s x
  obtain ⟨v, d, hv, hd, herr, -, hvv, -⟩ := vfyAndDecAgreeAndRepeat s
  have hdecode : decode s.cfg (.txn (0x80#8 ++ x ++ 3#8)) = .ok (commandAt 3#8) :=
    decode_byteWord (r := .cmd) rfl rfl (fun _ => rfl) x 3#8
  refine ⟨hdecode, ⟨v, d, hv, hvv, hd, herr⟩, fun hn => ?_,
    fun hn hk => ?_, fun hn hk => ?_⟩
  · rw [exec_vfy, Block.vfy_of_length hn]
    rfl
  · rw [exec_vfy, Block.vfy_of_checksum hn hk]
    rfl
  · rw [exec_vfy, Block.vfy_of_valid hn hk]
    rfl

end Sys2Proof.Machine
end

section
/-! PROOFS. Encode: its range, its bytes, what they determine, and ENC (spec/41_encode.md R90 to R92, R94). -/

namespace Sys2Proof.Codec

/-! ### The range test -/

theorem exists_encode_ok_iff {c : Config} {o t m : Byte} {v : Int} {a : Byte} :
    (∃ f, encode c o t m v a = .ok f) ↔ valueMin ≤ v ∧ v ≤ valueMax := by
  simp only [encode_ok_iff, exists_and_left, exists_eq, and_true]

/-- A 64-bit operand is in the signed 32-bit range exactly when its bits from the sign bit 31 up are all equal (R91). -/
theorem high_bits_equal_iff_in_range (x : BitVec 64) :
    (x.extractLsb' 31 33 = 0 ∨ x.extractLsb' 31 33 = BitVec.allOnes 33) ↔ valueMin ≤ x.toInt ∧ x.toInt ≤ valueMax := by
  have hhigh : (x.extractLsb' 31 33).toNat = x.toNat / 2 ^ 31 := by
    rw [BitVec.extractLsb'_toNat, Nat.shiftRight_eq_div_pow]
    omega
  have hx := x.isLt
  simp only [← BitVec.toNat_inj, hhigh, BitVec.ofNat_eq_ofNat, BitVec.toNat_zero, BitVec.toNat_allOnes,
    BitVec.toInt_eq_toNat_cond, valueMin, valueMax]
  split <;> omega

/-- Settles O14: the error is the range test, and on 64 bits the range is that of the sign-extended 32-bit values. -/
theorem encodeRangeTest : Obligations.EncodeRangeTest := by
  refine ⟨fun c o t m v a => ?_, fun c o t m x a => ?_⟩
  · rw [encode_error_iff]
    norm_num [valueMin, valueMax]
  · rw [exists_encode_ok_iff, high_bits_equal_iff_in_range]

/-! ### The bytes -/

theorem encode_of_in_range (c : Config) (o t m : Byte) {v : Int} (a : Byte) (h1 : valueMin ≤ v) (h2 : v ≤ valueMax) :
    encode c o t m v a = .ok (payload c o t m (BitVec.ofInt 32 v) a ++ [checksum (payload c o t m (BitVec.ofInt 32 v) a)]) :=
  encode_ok_iff.mpr ⟨h1, h2, rfl⟩

/-- Settles O13: the five fields in wire order and the reserved bytes are the payload. -/
theorem encodeSerialisesFields : Obligations.EncodeSerialisesFields := by
  refine fun c o t m v a => ⟨fun h1 h2 => ?_, fun hv => encode_error_iff.mpr ⟨rfl, hv⟩⟩
  have hf := encode_of_in_range c o t m a h1 h2
  exact ⟨hf, fun hc => encode_ok_length hc hf⟩

/-! ### Validity, and the fields read back from the bytes -/

theorem validate_encode {c : Config} {o t m : Byte} {v : Int} {a : Byte} {f : List Byte} (hc : c.Admissible)
    (hf : encode c o t m v a = .ok f) : validate c f = .ok (byteAt f c.payloadLen) := by
  obtain ⟨-, -, rfl⟩ := encode_ok_iff.mp hf
  have hp := payload_length c o t m (BitVec.ofInt 32 v) a hc.1
  rw [← hp, byteAt_append_length, validate_append_ok_iff hp]

/-- The Frame view shows the fields that a payload was made of (R60, R102), whatever follows it. -/
theorem frameView_payload_append (c : Config) (o t m : Byte) (w : Word) (a : Byte) (q : List Byte) :
    frameView (payload c o t m w a ++ q) = ⟨o, t, m, w.toInt, a⟩ := by
  rw [payload_eq]
  exact congrArg (fun u : Word => Frame.mk o t m u.toInt a) (wordOf_valueBytes w)

theorem frameView_encode {c : Config} {o t m : Byte} {v : Int} {a : Byte} {f : List Byte}
    (hf : encode c o t m v a = .ok f) : frameView f = ⟨o, t, m, v, a⟩ := by
  obtain ⟨h1, h2, rfl⟩ := encode_ok_iff.mp hf
  rw [frameView_payload_append, toInt_ofInt_of_range h1 h2]

/-- The Frame view reads the positions 0 to 7 only. -/
theorem frameView_take_eight (p : List Byte) : frameView (p.take 8) = frameView p := by
  simp [frameView, frameValue, byteAt_take]

/-- Settles O16: the last byte is the checksum of the payload, and the positions 0 to 7 show the five fields. -/
theorem encodeIsValidAndInjective : Obligations.EncodeIsValidAndInjective := by
  refine fun c o t m v a f hc hf => ⟨validate_encode hc hf, fun o' t' m' v' a' f' hf' h8 => ?_⟩
  have hview : (⟨o, t, m, v, a⟩ : Frame) = ⟨o', t', m', v', a'⟩ := calc
    _ = frameView (f.take 8) := by rw [frameView_take_eight, frameView_encode hf]
    _ = frameView (f'.take 8) := by rw [h8]
    _ = _ := by rw [frameView_take_eight, frameView_encode hf']
  simpa using hview

end Sys2Proof.Codec

namespace Sys2Proof.Machine

/-! ### ENC (R92) -/

theorem exec_enc (s : State) : exec .enc s = .next (s.commit (s.blk.enc s.cfg)) := rfl

/-- Settles O32: the word is CMD's with the code of ENC, and Encode of the operands decides the ending. -/
theorem encEncodesTheOperands : Obligations.EncEncodesTheOperands := by
  intro s x
  have hdecode : decode s.cfg (.txn (0x80#8 ++ x ++ 1#8)) = .ok (commandAt 1#8) :=
    decode_byteWord (r := .cmd) rfl rfl (fun _ => rfl) x 1#8
  refine ⟨hdecode, fun f hf => ?_, fun hv => ?_⟩
  · rw [exec_enc, Block.enc_ok hf]
    rfl
  · rw [exec_enc, Block.enc_error (Codec.encode_error_iff.mpr ⟨rfl, hv⟩)]
    rfl

end Sys2Proof.Machine
end

section
/-! PROOFS. Decode, its views, and the round trip of an encoded frame (spec/42_decode.md R100, R102 to R106). -/

namespace Sys2Proof.Codec

/-! ### Decode and Validate -/

/-- Decode makes Validate's two tests and gives the payload in place of the checksum (R83, R100). -/
theorem decode_eq_map_validate (c : Config) (b : List Byte) :
    decode c b = (validate c b).map fun _ => b.take c.payloadLen := by
  by_cases hl : b.length = c.frameLen
  · by_cases hk : checksum (b.take c.payloadLen) = byteAt b c.payloadLen
    · rw [decode_ok_iff.mpr ⟨hl, hk, rfl⟩, validate_ok_iff.mpr ⟨hl, hk, rfl⟩]
      rfl
    · rw [decode_checksum_iff.mpr ⟨hl, hk⟩, validate_checksum_iff.mpr ⟨hl, hk⟩]
      rfl
  · rw [decode_length hl, validate_length hl]
    rfl

theorem decode_of_validate_error {c : Config} {b : List Byte} {e : ErrorKind} (h : validate c b = .error e) :
    decode c b = .error e := by
  rw [decode_eq_map_validate, h]
  rfl

theorem decode_of_validate_ok {c : Config} {b : List Byte} {k : Byte} (h : validate c b = .ok k) :
    decode c b = .ok (b.take c.payloadLen) := by
  rw [decode_eq_map_validate, h]
  rfl

/-- Settles O12: an accepted frame is its payload and the checksum byte that Validate gives. -/
theorem decodeIsValidateDroppingChecksum : Obligations.DecodeIsValidateDroppingChecksum := by
  refine fun c b => ⟨decode_length, fun e => decode_of_validate_error, fun k h => ?_⟩
  obtain ⟨p, rfl, hp, -⟩ := validate_ok_append h
  refine ⟨p, ?_, hp, rfl⟩
  rw [decode_of_validate_ok h, List.take_left' hp]

/-! ### Decode of an encoded frame -/

/-- Decode gives back the payload that Encode put its checksum after. -/
theorem decode_encode {c : Config} {o t m : Byte} {v : Int} {a : Byte} {f : List Byte} (hc : c.Admissible)
    (hf : encode c o t m v a = .ok f) : decode c f = .ok (payload c o t m (BitVec.ofInt 32 v) a) := by
  rw [decode_of_validate_ok (validate_encode hc hf)]
  obtain ⟨-, -, rfl⟩ := encode_ok_iff.mp hf
  rw [List.take_left' (payload_length c o t m (BitVec.ofInt 32 v) a hc.1)]

/-- The Frame view reads the positions below P only, so a frame and its payload show the same fields. -/
theorem frameView_of_decode_ok {c : Config} {b p : List Byte} (hc : c.Admissible) (h : decode c b = .ok p) :
    frameView p = frameView b := by
  obtain ⟨-, -, rfl⟩ := decode_ok_iff.mp h
  rw [← frameView_take_eight, List.take_take, Nat.min_eq_left hc.1, frameView_take_eight]

/-- Settles O17: the decoded payload is the one Encode wrote, whose positions 0 to 7 show the fields. -/
theorem frameRoundTrip : Obligations.FrameRoundTrip := by
  intro c o t m v a f hc hf
  have hd := decode_encode hc hf
  refine ⟨_, hd, ?_, rfl⟩
  rw [frameView_of_decode_ok hc hd, frameView_encode hf]

/-- Settles O18: an encoded frame is valid, and Validate detects every single substitution in a valid frame. -/
theorem encodedFrameChecksumSensitivity : Obligations.EncodedFrameChecksumSensitivity :=
  fun c _ _ _ _ _ f i x hc hf hi hx =>
    decode_of_validate_error (singleSubstitutionInvalidates c f _ i x (validate_encode hc hf) hi hx)

/-! ### The views -/

/-- Settles O19: both views take their bytes at fixed positions below 8. -/
theorem viewsReadTheWirePositions : Obligations.ViewsReadTheWirePositions :=
  fun _ _ _ _ _ _ _ _ _ => ⟨rfl, rfl⟩

theorem replyValid_iff {c : Config} {b : List Byte} {target : Byte} :
    replyValid c b target = true ↔ ∃ p, decode c b = .ok p ∧ (replyView p).address = target := by
  unfold replyValid
  cases decode c b with
  | ok p => simp
  | error e => simp

end Sys2Proof.Codec

namespace Sys2Proof.Machine

/-! ### DEC (R101) -/

/-- The verdict of a completed DEC is Decode's on the received input, whatever was lost past F (R14, R101). -/
theorem dec_verdict_of_received {s : State} {lost : List Byte} (hb : s.blk.rxb.length = s.cfg.frameLen)
    (hl : s.blk.rxn.toNat - s.cfg.frameLen ≤ lost.length) :
    ((s.blk.dec s.cfg).st.rxv = true ↔ ∃ p, Codec.decode s.cfg (s.received lost) = .ok p) ∧
    ∀ p, Codec.decode s.cfg (s.received lost) = .ok p → (s.blk.dec s.cfg).pay = p := by
  rw [State.decode_received hb hl, Block.dec_rxv, Block.dec_pay]
  by_cases ha : s.blk.accepts s.cfg
  · simp [ha]
  · by_cases hn : s.blk.rxn.toNat = s.cfg.frameLen <;> simp [ha, hn]

/-- Settles O33: the three endings are DEC's by its two tests, which decide Decode of the received input. -/
theorem decValidatesAndLatches : Obligations.DecValidatesAndLatches := by
  intro s x
  have hdecode : decode s.cfg (.txn (0x80#8 ++ x ++ 2#8)) = .ok (commandAt 2#8) :=
    decode_byteWord (r := .cmd) rfl rfl (fun _ => rfl) x 2#8
  refine ⟨hdecode, fun hn => ?_, fun hn hk => ?_, fun hn hk => ?_, fun lost t hb hl ht => ?_⟩
  · rw [exec_dec, Block.dec_of_length hn]
    rfl
  · rw [exec_dec, Block.dec_of_checksum hn hk]
    rfl
  · rw [exec_dec, Block.dec_of_valid hn hk]
    rfl
  · have hblk : t.blk = s.blk.dec s.cfg := exec_cases ht
    rw [hblk]
    exact dec_verdict_of_received hb hl

/-! ### A received reply (R104) -/

/-- Settles O37: DEC accepts the pushed sequence exactly when Decode does, AM compares the echoed address with ADR, and
accepting writes no sticky flag. -/
theorem replyValidIsRxvAndAm : Obligations.ReplyValidIsRxvAndAm := by
  refine ⟨fun c b target => Codec.replyValid_iff, fun s bytes hc hb => ⟨_, execList_rxc_push_dec s bytes, ?_⟩⟩
  have h1 : 1 < s.cfg.payloadLen := by omega
  rw [Codec.replyValid_iff]
  rcases Block.receive_cases (frameLen_lt_of_admissible hc) bytes hb with ⟨hl, x, y, e⟩ | ⟨hd, e⟩ | ⟨hd, e⟩
  · simp [Codec.decode_length hl, e]
  · simp [hd, e]
  · simp [hd, e, Codec.replyView, Codec.byteAt_take h1]

/-! ### The round trip in the block (R105) -/

/-- Settles O38: DEC of the pushed frame is Decode of it (O36), and Decode gives back the operands (O17). -/
theorem blockRoundTrip : Obligations.BlockRoundTrip := by
  intro s hc hb h1 h2
  obtain ⟨f, hf⟩ := Codec.exists_encode_ok_iff.mpr ⟨h1, h2⟩
  obtain ⟨p, hd, hview, hreserved⟩ := Codec.frameRoundTrip _ _ _ _ _ _ f hc hf
  obtain ⟨-, hk, hp⟩ := Codec.decode_ok_iff.mp hd
  rw [hp] at hk
  have hrxb : (s.blk.enc s.cfg).rxb = s.blk.rxb := by rw [Block.enc_ok hf]
  obtain rfl : (s.blk.enc s.cfg).txb = f := by rw [Block.enc_ok hf]
  obtain ⟨t, hrun, haccept, -⟩ := receivingASequenceDecodesIt (s.commit (s.blk.enc s.cfg)) _ hc (hrxb ▸ hb)
  obtain ⟨herr, hrxv, rfl, -, hcsum, -⟩ := haccept p hd
  obtain ⟨hopc, htyp, hmot, hvalue, hadr⟩ := Codec.Frame.mk.inj hview
  exact ⟨_, t, exec_enc s, hrun, hrxv, herr, hopc, htyp, hmot, hvalue, hadr, hreserved, hcsum.trans hk⟩

end Sys2Proof.Machine
end

section
/-! PROOFS. The buffer control of spec/43_buffer_control.md: operand writes (R115), reads (R116), PUSH and RXC (R117, R118), CLE, NOP
and the illegal command (R119 to R121). -/

namespace Sys2Proof.Machine

/-! ### Reads (R116) -/

theorem exec_rd_of_read {r : Reg} {s : State} {v : Word} (h : s.blk.read r = some v) :
    exec (.rd r) s = .next { s with response := some v } :=
  exec_rd_eq_next_iff.mpr ⟨v, h, rfl⟩

/-- A cell that exists is read zero-extended (R44). -/
theorem map_busWord_getElem? {l : List Byte} {n : Nat} (h : n < l.length) :
    l[n]?.map busWord = some ((l.getD n 0).setWidth 32) := by
  simp [busWord, h]

/-- DVAL is bytes 3 to 6 of PAY, the most significant first (R25). -/
theorem Block.dval_of_pay {b : Block} {p0 p1 p2 p3 p4 p5 p6 : Byte} {rest : List Byte}
    (h : b.pay = p0 :: p1 :: p2 :: p3 :: p4 :: p5 :: p6 :: rest) : b.dval = p3 ++ p4 ++ p5 ++ p6 := by
  rw [Block.dval, h]
  rfl

/-- RVAL is bytes 2 to 5 of PAY, the most significant first (R25). -/
theorem Block.rval_of_pay {b : Block} {p0 p1 p2 p3 p4 p5 p6 : Byte} {rest : List Byte}
    (h : b.pay = p0 :: p1 :: p2 :: p3 :: p4 :: p5 :: p6 :: rest) : b.rval = p2 ++ p3 ++ p4 ++ p5 := by
  rw [Block.rval, h]
  rfl

/-- Settles O21: every clause is a register's word answered to the host; a view is bytes of PAY, and the index of a cell below
the buffer's size is in range. -/
theorem readReturnsTheNamedRegister : Obligations.ReadReturnsTheNamedRegister := by
  intro s htxb hrxb hpay
  have read (r : Reg) {v : Word} (h : s.blk.read r = some v) := exec_rd_of_read h
  refine ⟨readWordsOfTheMap, read .cmd rfl, read .rxd rfl, read (.ro .st) rfl, read (.rw .opc) rfl, read (.rw .typ) rfl,
    read (.rw .mot) rfl, read (.rw .adr) rfl, read (.rw .vlo) rfl, read (.rw .vhi) rfl, read (.ro .rxn) rfl,
    read (.ro .csum) rfl, fun p0 p1 p2 p3 p4 p5 p6 rest h => ⟨?_, ?_⟩, fun i hi => ⟨?_, ?_⟩, fun i hi => ?_⟩
  · exact read (.ro .dval) (congrArg some (Block.dval_of_pay h))
  · exact read (.ro .rval) (congrArg some (Block.rval_of_pay h))
  · exact read (.ro (.txb i)) (map_busWord_getElem? (htxb ▸ hi))
  · exact read (.ro (.rxb i)) (map_busWord_getElem? (hrxb ▸ hi))
  · exact read (.ro (.pay i)) (map_busWord_getElem? (hpay ▸ hi))

/-! ### An instruction that always completes, as its whole next state -/

/-- When exec_cases fixes the block after an instruction, the next state is that block in the state, and no answer. -/
theorem exec_eq_of_after {i : Instr} {s : State} {b b' : Block} (h : exec i s = .next (s.commit b))
    (hb : BlockAfter s.cfg s.blk i b → b = b') : exec i s = .next { s with blk := b', response := none } := by
  rw [h, hb (exec_cases h)]
  rfl

/-! ### Operand writes (R115) -/

/-- Settles O25: exec_cases gives the block after each write, and the word is the write to the register at its index. -/
theorem operandWriteSetsOneRegister : Obligations.OperandWriteSetsOneRegister := by
  intro s b d
  refine ⟨exec_eq_of_after rfl id, exec_eq_of_after rfl id, exec_eq_of_after rfl id, exec_eq_of_after rfl id,
    exec_eq_of_after rfl id, exec_eq_of_after rfl id, ?_, ?_, ?_, ?_, ?_, ?_⟩
  · exact decode_write_of_regAt (idx := 2) (r := .rw .opc) rfl d
  · exact decode_write_of_regAt (idx := 3) (r := .rw .typ) rfl d
  · exact decode_write_of_regAt (idx := 4) (r := .rw .mot) rfl d
  · exact decode_write_of_regAt (idx := 5) (r := .rw .adr) rfl d
  · exact decode_write_of_regAt (idx := 6) (r := .rw .vlo) rfl d
  · exact decode_write_of_regAt (idx := 7) (r := .rw .vhi) rfl d

/-! ### PUSH (R117), by the count before it -/

theorem exec_push (d : Byte) (s : State) : exec (.push d) s = .next (s.commit (s.blk.push s.cfg d)) := rfl

theorem Block.push_of_room {c : Config} {b : Block} (d : Byte) (h : b.rxn.toNat < c.frameLen) (hc : c.frameLen < 255) :
    b.push c d = { b with rxb := b.rxb.set b.rxn.toNat d, rxn := b.rxn + 1 } := by
  rw [Block.push, if_pos h, if_pos (h.trans hc)]

theorem Block.push_of_full {c : Config} {b : Block} (d : Byte) (h : c.frameLen ≤ b.rxn.toNat) (hn : b.rxn ≠ 255) :
    b.push c d = { b with rxn := b.rxn + 1 } := by
  have hlt : b.rxn.toNat < 255 := by
    have : b.rxn.toNat ≠ 255 := fun e => hn (BitVec.eq_of_toNat_eq e)
    omega
  rw [Block.push, if_neg h.not_gt, if_pos hlt]

theorem Block.push_of_saturated {c : Config} {b : Block} (d : Byte) (hn : b.rxn = 255) (hc : c.frameLen < 255) :
    b.push c d = b := by
  have hlt : ¬ b.rxn.toNat < 255 := by rw [hn]; decide
  have hfull : ¬ b.rxn.toNat < c.frameLen := by omega
  rw [Block.push, if_neg hfull, if_neg hlt]

/-- Settles O26: an admissible F is below 255, so the three counts are apart. -/
theorem pushStoresAndCounts : Obligations.PushStoresAndCounts := by
  intro s x b
  refine ⟨?_, fun h hc => ?_, fun h hn => ?_, fun hn hc => ?_⟩
  · exact decode_byteWord (r := .rxd) rfl rfl (fun _ => rfl) x b
  · rw [exec_push, Block.push_of_room b h (frameLen_lt_of_admissible hc)]
    rfl
  · rw [exec_push, Block.push_of_full b h hn]
    rfl
  · rw [exec_push, Block.push_of_saturated b hn (frameLen_lt_of_admissible hc)]
    rfl

/-! ### The commands RXC, CLE, NOP and an illegal code (R118 to R121) -/

/-- R70: a write to CMD is the operation of its code, whatever the ignored bits hold. -/
theorem decode_commandWrite (c : Config) (x : BitVec 24) (code : Byte) :
    decode c (.txn (0x80#8 ++ x ++ code)) = .ok (commandAt code) :=
  decode_byteWord (r := .cmd) rfl rfl (fun _ => rfl) x code

/-- Settles O27, by the code of RXC and the block after it. -/
theorem rxcEmptiesTheCountOnly : Obligations.RxcEmptiesTheCountOnly := fun s x =>
  ⟨decode_commandWrite s.cfg x 4, exec_eq_of_after rfl id⟩

/-- Settles O28, by the code of CLE and the block after it. -/
theorem cleClearsTheErrorReport : Obligations.CleClearsTheErrorReport := fun s x =>
  ⟨decode_commandWrite s.cfg x 5, exec_eq_of_after rfl id⟩

/-- Settles O29, by the code of NOP and the block after it. -/
theorem nopChangesNothing : Obligations.NopChangesNothing := fun s x =>
  ⟨decode_commandWrite s.cfg x 0, exec_eq_of_after rfl id⟩

/-- Settles O30: a code from 6 selects no operation, and the error it raises is reported in ERR and SI alone. -/
theorem illegalCommandIsReported : Obligations.IllegalCommandIsReported := fun s hi code h6 =>
  ⟨by rw [decode_commandWrite, commandAt_illegal h6], exec_eq_of_after rfl id⟩

end Sys2Proof.Machine
end

section
/-! PROOFS. The error discipline (spec/60_exceptions.md): a run that ends with no sticky flag has raised nothing (R138), and every
transaction is allowed at all times (R141). -/

namespace Sys2Proof.Machine

/-! ### One instruction that leaves no sticky flag -/

/-- The premise of R138 on a status: all four sticky flags are 0. -/
def Status.NoSticky (t : Status) : Prop :=
  t.se = false ∧ t.sl = false ∧ t.sc = false ∧ t.si = false

theorem State.noError_iff_noSticky {s : State} : s.NoError ↔ s.blk.st.NoSticky := Iff.rfl

/-- Flags that are kept when set were 0 before when they are 0 after. -/
theorem Status.StickyKept.noSticky {t u : Status} (h : t.StickyKept u) (hu : u.NoSticky) : t.NoSticky := by
  obtain ⟨he, hl, hc, hi⟩ := h
  obtain ⟨ue, ul, uc, ui⟩ := hu
  simp_all [Status.NoSticky]

/-- ENC's error sets SE, so without a flag it succeeded. -/
theorem Block.enc_err_of_noSticky {c : Config} {b : Block} (h : (b.enc c).st.NoSticky) : (b.enc c).st.err = 0 := by
  rcases Block.enc_cases c b with ⟨f, -, e⟩ | ⟨-, e⟩
  · rw [e]
  · simp [e, Status.NoSticky] at h

/-- DEC's errors set SL and SC, so without a flag it accepted. -/
theorem Block.dec_err_of_noSticky {c : Config} {b : Block} (h : (b.dec c).st.NoSticky) : (b.dec c).st.err = 0 := by
  rcases Block.dec_cases c b with ⟨-, e⟩ | ⟨-, -, e⟩ | ⟨-, -, e⟩
  · simp [e, Status.NoSticky] at h
  · simp [e, Status.NoSticky] at h
  · rw [e]

/-- VFY's errors set SL and SC, so without a flag it accepted. -/
theorem Block.vfy_err_of_noSticky {c : Config} {b : Block} (h : (b.vfy c).st.NoSticky) : (b.vfy c).st.err = 0 := by
  rcases Block.vfy_cases c b with ⟨-, e⟩ | ⟨-, -, e⟩ | ⟨-, -, e⟩
  · simp [e, Status.NoSticky] at h
  · simp [e, Status.NoSticky] at h
  · rw [e]

/-- An instruction that leaves no sticky flag wrote 0 to ERR or did not write it. -/
theorem BlockAfter.err_of_noSticky {c : Config} {b b' : Block} {i : Instr} (h : BlockAfter c b i b')
    (hb : b'.st.NoSticky) : b'.st.err = b.st.err ∨ b'.st.err = 0 := by
  cases i with
  | enc => cases h; exact .inr (Block.enc_err_of_noSticky hb)
  | dec => cases h; exact .inr (Block.dec_err_of_noSticky hb)
  | vfy => cases h; exact .inr (Block.vfy_err_of_noSticky hb)
  | illegal code => cases h; simp [Status.NoSticky] at hb
  | cle => cases h; exact .inr rfl
  | frameCmd o t m v a => obtain ⟨f, -, rfl⟩ := h; exact .inr rfl
  | frameReply st a v x0 x1 x2 k =>
    obtain ⟨x, y, rfl⟩ := h.frameReply_dec
    exact .inr (Block.dec_err_of_noSticky hb)
  | _ => cases h; exact .inl rfl

/-! ### Runs without CLE (R138) -/

theorem execList_cons_eq_next_iff {i : Instr} {is : List Instr} {s t : State} :
    execList (i :: is) s = .next t ↔ ∃ u, exec i s = .next u ∧ execList is u = .next t := by
  cases h : exec i s <;> simp [execList, h]

/-- Settles O52, by induction on the list: the flags are traced back from the end, and the run's rest, which starts with none,
leaves an ERR of 0 alone. -/
theorem noErrorRunsRaiseNothing : Obligations.NoErrorRunsRaiseNothing := by
  intro is
  induction is with
  | nil =>
    intro s t _ h ht
    cases h
    exact ⟨ht, id⟩
  | cons i is ih =>
    intro s t hcle h ht
    obtain ⟨hi, his⟩ := List.ne_and_not_mem_of_not_mem_cons hcle
    obtain ⟨u, hu, hrun⟩ := execList_cons_eq_next_iff.mp h
    obtain ⟨hflags, herr⟩ := ih u t his hrun ht
    have hnone : u.blk.st.NoSticky := State.noError_iff_noSticky.mp hflags
    have hafter : BlockAfter s.cfg s.blk i u.blk := exec_cases hu
    refine ⟨State.noError_iff_noSticky.mpr ((hafter.stickyKept hi.symm).noSticky hnone), fun h0 => herr ?_⟩
    rcases hafter.err_of_noSticky hnone with hkept | hzero
    · exact hkept.trans h0
    · exact hzero

/-! ### Every transaction completes (R141) -/

/-- In a legal state a word that decodes runs to its end: what it decodes to is well-formed, and the buffers have their sizes. -/
theorem step_completes_of_decode {s : State} {h : HostWord} {rest : List HostEvent} {i : Instr} (hs : s.Inv)
    (hin : s.input = .word h :: rest) (hd : decode s.cfg h = .ok i) : ∃ t, step s = .next t := by
  have hwf : i.wf s.cfg = true := (decodedWordLiesInItsTableRow s.cfg h i hs.admissible hd).2
  rw [stepRunsTheDecodedInstruction s h rest i hin hd hwf]
  exact exec_completes hs.txb_length hs.rxb_length hs.pay_length hwf

/-- Settles O58, by the three kinds of host word, each of which decodes: a mapped index names a register, a command frame is one
by hypothesis, and every 80 bits are a reply frame. -/
theorem mappedTransactionsAlwaysComplete : Obligations.MappedTransactionsAlwaysComplete := by
  intro s h rest hs hin hmapped hcommand
  have hd : ∃ i, decode s.cfg h = .ok i := by
    cases h with
    | txn w =>
      obtain ⟨i, hd, -⟩ := (transactionDecoderIsTotal s.cfg w hs.admissible).1 (hmapped w rfl)
      exact ⟨i, hd⟩
    | command w => exact hcommand w rfl
    | reply w => exact ⟨decodeReply w, rfl⟩
  obtain ⟨i, hd⟩ := hd
  exact step_completes_of_decode hs hin hd

end Sys2Proof.Machine
end

section
/-! PROOFS. Reset (spec/70_reset_and_hazards.md): one step that nothing of the block survives (R150), and what the host
meets after it (R151). -/

namespace Sys2Proof.Codec

/-! ### Zero bytes -/

theorem byteAt_replicate_zero (n i : Nat) : byteAt (List.replicate n 0) i = 0 := by
  by_cases h : i < n <;> simp [byteAt, h]

theorem payload_zero {c : Config} (hc : c.Admissible) : payload c 0 0 0 0 0 = List.replicate c.payloadLen 0 := by
  obtain ⟨n, hn⟩ : ∃ n, c.payloadLen = n + 8 := ⟨_, (Nat.sub_add_cancel hc.1).symm⟩
  rw [payload_eq, hn]
  rfl

/-- The zero frame is encoded as zero bytes: its checksum is one more. -/
theorem encode_zero {c : Config} (hc : c.Admissible) : encode c 0 0 0 0 0 = .ok (List.replicate c.frameLen 0) := by
  have hp : payload c 0 0 0 (BitVec.ofInt 32 0) 0 = List.replicate c.payloadLen 0 := payload_zero hc
  rw [encode_of_in_range c 0 0 0 0 (by decide) (by decide), hp, checksum_replicate_zero, Config.frameLen,
    List.replicate_succ']

end Sys2Proof.Codec

namespace Sys2Proof.Machine

/-! ### The step (R150) -/

theorem step_of_reset {s : State} {rest : List HostEvent} (hs : s.input = .reset :: rest) :
    step s = .next ({ s with input := rest } : State).applyReset := by
  simp only [step, State.nextEvent, hs]

/-- Settles O54: the block after the step is Block.reset of the kept parameter, which mentions no field of the block before. -/
theorem resetStepLeavesOneState : Obligations.ResetStepLeavesOneState := fun _ _ hs => step_of_reset hs

/-! ### Reads after reset (R151) -/

theorem map_busWord_replicate_zero {n i : Nat} (h : i < n) : (List.replicate n (0 : Byte))[i]?.map busWord = some 0 := by
  simp [h, busWord]

theorem Block.reset_dval (c : Config) : (Block.reset c).dval = 0 := by
  simp only [Block.dval, Codec.frameValue, Block.reset_pay, Codec.byteAt_replicate_zero]
  decide

theorem Block.reset_rval (c : Config) : (Block.reset c).rval = 0 := by
  simp only [Block.rval, Codec.replyValue, Block.reset_pay, Codec.byteAt_replicate_zero]
  decide

theorem Status.word_reset : Status.reset.word = 0 := by decide

theorem Block.reset_readRO {c : Config} {r : ROReg} (hr : r.wf c = true) : (Block.reset c).readRO r = some 0 := by
  cases r with
  | st => exact congrArg (fun w => some (busWord w)) Status.word_reset
  | rxn => rfl
  | csum => rfl
  | dval => exact congrArg some (Block.reset_dval c)
  | rval => exact congrArg some (Block.reset_rval c)
  | txb i => exact map_busWord_replicate_zero (of_decide_eq_true hr)
  | rxb i => exact map_busWord_replicate_zero (of_decide_eq_true hr)
  | pay i => exact map_busWord_replicate_zero (of_decide_eq_true hr)

theorem Block.reset_read {c : Config} {r : Reg} (hr : r.wf c = true) : (Block.reset c).read r = some 0 := by
  cases r with
  | cmd => rfl
  | rxd => rfl
  | rw r => cases r <;> rfl
  | ro r => exact Block.reset_readRO hr

/-! ### ENC, DEC and VFY after reset (R151) -/

theorem Block.reset_vin (c : Config) : (Block.reset c).vin = 0 := by
  rw [Block.vin, Block.reset_vhi, Block.reset_vlo]
  decide

/-- All operands are 0 after reset, and so is the frame they give. -/
theorem Block.reset_enc {c : Config} (hc : c.Admissible) :
    (Block.reset c).enc c = { Block.reset c with st := { Status.reset with txv := true } } := by
  have hf : Codec.encode c (Block.reset c).opc (Block.reset c).typ (Block.reset c).mot (Block.reset c).vin
      (Block.reset c).adr = .ok (List.replicate c.frameLen 0) := by
    rw [Block.reset_vin]
    exact Codec.encode_zero hc
  rw [Block.enc_ok hf, Codec.byteAt_replicate_zero]
  rfl

/-- No byte is received after reset, and a frame has at least one. -/
theorem Block.reset_rxn_ne_frameLen (c : Config) : (Block.reset c).rxn.toNat ≠ c.frameLen := by
  simp [Config.frameLen]

theorem Status.word_reset_encoded : ({ Status.reset with txv := true } : Status).word = 0x0001 := by decide

theorem Status.word_reset_frameLengthError : ({ Status.reset with err := 2, sl := true } : Status).word = 0x0220 := by
  decide

theorem Block.reset_dec_word (c : Config) : ((Block.reset c).dec c).st.word = 0x0220 := by
  rw [Block.dec_of_length (Block.reset_rxn_ne_frameLen c)]
  exact Status.word_reset_frameLengthError

theorem Block.reset_vfy_word (c : Config) : ((Block.reset c).vfy c).st.word = 0x0220 := by
  rw [Block.vfy_of_length (Block.reset_rxn_ne_frameLen c)]
  exact Status.word_reset_frameLengthError

/-- Settles O55: every register that exists reads 0, ENC gives the zero frame, and DEC and VFY fail the length test. -/
theorem resetStateHasDefinedReadings : Obligations.ResetStateHasDefinedReadings := by
  intro c hc
  have henc : exec .enc (State.resetFor c) = .next ((State.resetFor c).commit ((Block.reset c).enc c)) := exec_enc _
  rw [Block.reset_enc hc] at henc
  exact ⟨fun r hr => exec_rd_of_read (Block.reset_read hr), ⟨_, henc, rfl, rfl, Status.word_reset_encoded⟩,
    ⟨_, exec_dec _, Block.reset_dec_word c⟩, ⟨_, exec_vfy _, Block.reset_vfy_word c⟩⟩

end Sys2Proof.Machine
end
